-- ==== Sys2Proof/Word.lean ====
section
/-! DEFINITION. The words of the RMAU: the 32-bit bus and command word, register indices, the register file. -/

namespace Sys2Proof

/-- A 32-bit word: bus data, a command, a control or status register (00_scope.md R6, `LIMB`). -/
abbrev Word := BitVec 32

/-- A big-number register index; the value k names x[k] (30_encoding.md R92). -/
abbrev Reg := Fin 8

/-- The register file x[0..7]. A register is an unsigned integer (10_state.md R21, 00_scope.md R9);
that each lies in [0, 2^W) is a clause of `Machine.State.Inv`. -/
abbrev Regs := Vector Nat 8

end Sys2Proof
end

