-- ==== Sys2Proof/Machine/Flags.lean ====
section
/-! DEFINITION. The FLAGS register (10_state.md R33): its fields, and every value a command writes to it (R34). -/

namespace Sys2Proof.Machine

/-- FLAGS.PRIME, bit 0. -/
def flagPrime (f : Word) : Bool := f[0]

/-- FLAGS.NOINV, bit 1. -/
def flagNoinv (f : Word) : Bool := f[1]

/-- FLAGS.MRCLASS, bits [5:4]. -/
def flagMrClass (f : Word) : BitVec 2 := f.extractLsb' 4 2

/-- The Miller-Rabin class of MR_PRE (43_primality.md R190). -/
inductive MrClass where
  | notPrime
  | prime
  | test
deriving DecidableEq, Repr

/-- The MRCLASS encoding: 0 NOTPRIME, 1 PRIME, 2 TEST (10_state.md R33). -/
def MrClass.code : MrClass → BitVec 2
  | .notPrime => 0
  | .prime => 1
  | .test => 2

/-- A FLAGS value from its three fields, every other bit 0 (10_state.md R33, R34). -/
def flagsWord (prime noinv : Bool) (cls : BitVec 2) : Word :=
  0#26 ++ cls ++ 0#2 ++ BitVec.ofBool noinv ++ BitVec.ofBool prime

/-- The multiplier commands, MODEXP and GCD write FLAGS <- 0. -/
def flagsClear : Word := flagsWord false false 0

/-- MODINV with no inverse sets NOINV alone (42_gcd_modinv.md R171). -/
def flagsNoInverse : Word := flagsWord false true 0

/-- MR_PRE writes the class, and PRIME only for class PRIME (43_primality.md R190). -/
def flagsOfClass (c : MrClass) : Word := flagsWord (c == .prime) false c.code

/-- MR_ROUND sets PRIME iff the round did not prove n composite (43_primality.md R191). -/
def flagsOfRound (composite : Bool) : Word := flagsWord (!composite) false 0

end Sys2Proof.Machine
end

