-- ==== Sys2Proof/Config.lean ====
section
/-! DEFINITION. The implementation parameters of 00_scope.md R6: L, with W and R derived from it, and BASE. -/

namespace Sys2Proof

/-- The configuration of one RMAU (00_scope.md R6). NREG = 8 and LIMB = 32 are fixed; BUS_PROTOCOL is not observable at
transaction level (log 15); LATENCY is the interleaving of `Machine.State.inputs` (log 2). -/
structure Config where
  /-- `L`, the limbs per big-number register. -/
  limbs : Nat
  /-- `BASE`, the platform's address of the register block's first byte (log 8). -/
  base : Nat
deriving DecidableEq, Repr

/-- `W = 32·L`, the register width in bits (00_scope.md R6). -/
def Config.width (c : Config) : Nat := 32 * c.limbs

/-- The Montgomery radix `R = 2^W` (00_scope.md R6). -/
def Config.radix (c : Config) : Nat := 2 ^ c.width

/-- The legal values: L from 1 to 128, BASE any 8 KiB-aligned address (00_scope.md R6). -/
abbrev Config.Legal (c : Config) : Prop := (1 ≤ c.limbs ∧ c.limbs ≤ 128) ∧ c.base % 0x2000 = 0

/-- The reference configuration, L = 16 (00_scope.md R6); the spec fixes no BASE, and the model takes 0 (log 8). -/
def Config.reference : Config := ⟨16, 0⟩

end Sys2Proof
end

