-- ==== Sys2Proof/Syntax.lean ====
section
/-! DEFINITION. The command set: one constructor per row of spec/opcode_table.json (30_encoding.md R94, R99). -/

namespace Sys2Proof

/-- A command with its register operands, in the order RD, RA, RB, RM of 30_encoding.md R99 (the fields a row marks
"0" are left out). An index outside 0 to 7 cannot be written. -/
inductive Instr where
  /-- `MODMUL xd, xa, xb, xm` (40_modmul_montgomery.md R121). -/
  | modmul (rd ra rb rm : Reg)
  /-- `MONTMUL xd, xa, xb, xm` (R122). -/
  | montmul (rd ra rb rm : Reg)
  /-- `MONT_TO xd, xa, xm` (R123). -/
  | montTo (rd ra rm : Reg)
  /-- `MONT_FROM xd, xa, xm` (R124). -/
  | montFrom (rd ra rm : Reg)
  /-- `MODEXP xd, xa, xb, xm` (41_modexp.md R150). -/
  | modexp (rd ra rb rm : Reg)
  /-- `GCD xd, xa, xb` (42_gcd_modinv.md R170). -/
  | gcd (rd ra rb : Reg)
  /-- `MODINV xd, xa, xm` (R171). -/
  | modinv (rd ra rm : Reg)
  /-- `MR_PRE xd, xm` (43_primality.md R190). -/
  | mrPre (rd rm : Reg)
  /-- `MR_ROUND xa, xm` (R191). -/
  | mrRound (ra rm : Reg)
deriving DecidableEq, Repr

end Sys2Proof
end

