-- ==== Sys2Proof/Machine/State.lean ====
section
/-! DEFINITION. The state of the RMAU (10_state.md R20 to R40) and its value after reset (70_reset_and_hazards.md R251),
the events of the host interface, and the reasons a step can stop. -/

namespace Sys2Proof.Machine

/-- The error codes of 60_exceptions.md R220. Codes 6 to 15 are "never written in this revision" and have no
constructor (log 11). -/
inductive ErrCode where
  /-- 0: the last command succeeded, or none has completed since reset. -/
  | noError
  /-- 1: the word matches no row of the opcode table. -/
  | illegalCmd
  /-- 2: x[RM] ≤ 1. -/
  | modulusSmall
  /-- 3: x[RM] is even and greater than 1. -/
  | modulusEven
  /-- 4: an operand outside its range. -/
  | operandRange
  /-- 5: a Miller-Rabin candidate that is even or below 5. -/
  | mrDomain
deriving DecidableEq, Repr

/-- The in-flight command: its word and the snapshot of x[0..7] taken at issue (30_encoding.md R101, 10_state.md R40). -/
structure Command where
  word : Word
  snap : Regs
deriving DecidableEq, Repr

/-- A host bus transaction at a byte offset from BASE, with its width in bytes (20_memory.md R60). A write's data is
one 32-bit word, since no other width is ever accepted (R62, log 9). -/
inductive Txn where
  /-- `MemRead(addr, n)`. -/
  | read (addr width : Nat)
  /-- `MemWrite(addr, n, v)`. -/
  | write (addr width : Nat) (value : Word)
deriving DecidableEq, Repr

/-- The response to a transaction (20_memory.md R60, R61). -/
inductive Response where
  /-- The value of an accepted read. -/
  | data (value : Word)
  /-- An accepted write. -/
  | ok
  /-- The RMAU refused the transaction. -/
  | busError
  /-- The transaction is not addressed to the RMAU (20_memory.md R61): what answers it is the platform's (log 7). -/
  | notAddressed
deriving DecidableEq, Repr

/-- What can happen next: the three kinds of step of 20_memory.md R74. -/
inductive Event where
  /-- A host transaction. -/
  | bus (t : Txn)
  /-- The hardware reset input `rst` (70_reset_and_hazards.md R250). -/
  | rst
  /-- The engine's latency ends: it completes its command, if it has one (30_encoding.md R103, log 2). -/
  | engine
deriving DecidableEq, Repr

/-- The reasons the machine stops with a fault: none. "The RMAU takes no traps" (60_exceptions.md R228) and "never
hangs" (70_reset_and_hazards.md R266); a command error is a completion (R223) and a bus error a response (R224).
Nothing raises a fault, so the type is safe. -/
inductive Fault where
deriving DecidableEq, Repr

/-- The reasons the model has no meaning for an instruction. -/
inductive Refusal where
  /-- Raised by `exec`'s arm of an instruction that has no meaning yet (no arm is, at present). Safe: a refused run
  proves nothing about the hardware. -/
  | notModelled (mnemonic : String)
deriving DecidableEq, Repr

/-- The state of the RMAU. ID and PARAM are constants and `irq` a function of the state (Machine/Ops.lean:
`idWord`, `paramWord`, `State.irq`). -/
structure State where
  /-- The configuration; no step writes it (00_scope.md R6, log 1). -/
  cfg : Config
  /-- x[0..7] (10_state.md R21). -/
  x : Regs
  /-- CTRL.IRQ_EN (R29). -/
  irqEn : Bool
  /-- STATUS.BUSY (R30). -/
  busy : Bool
  /-- STATUS.DONE (R30). -/
  done : Bool
  /-- STATUS.ERR (R30). -/
  err : Bool
  /-- STATUS.ERRCODE (R30, 60_exceptions.md R220). -/
  errcode : ErrCode
  /-- LASTCMD, what a read of CMD returns (R32). -/
  lastcmd : Word
  /-- FLAGS (R33). -/
  flags : Word
  /-- MR_S (R35). -/
  mrs : Word
  /-- OPCNT (R36). -/
  opcnt : Word
  /-- The in-flight command, if any (R40). -/
  inflight : Option Command
  /-- Model's own: the events still to come, in order (log 2). -/
  inputs : List Event
  /-- Model's own: the responses given so far, newest first (log 5). -/
  responses : List Response
deriving DecidableEq, Repr

/-- The state after reset of a given configuration (70_reset_and_hazards.md R251). -/
def State.resetOf (c : Config) : State where
  cfg := c
  x := #v[0, 0, 0, 0, 0, 0, 0, 0]
  irqEn := false
  busy := false
  done := false
  err := false
  errcode := .noError
  lastcmd := 0x00000000#32
  flags := 0x00000000#32
  mrs := 0#32
  opcnt := 0#32
  inflight := none
  inputs := []
  responses := []

/-- The machine right after reset, in the reference configuration L = 16 (70_reset_and_hazards.md R251, 00_scope.md R6, log 1). -/
def State.reset : State := State.resetOf Config.reference

end Sys2Proof.Machine
end

