-- ==== Sys2Proof/Machine/Ops.lean ====
section
/-! DEFINITION. The named operations over the state: register and limb access, the control and status registers,
issue, completion, the error completion, reset, and the interrupt output. -/

namespace Sys2Proof.Machine

/-! ### Big-number registers -/

/-- Read x[k] (00_scope.md R8). -/
def readReg (r : Regs) (k : Reg) : Nat := r[k.val]

/-- `x[k] <- v` (00_scope.md R8). -/
def writeReg (r : Regs) (k : Reg) (v : Nat) : Regs := r.set k.val v

/-- `limb(v, j) = v[32·j+31 : 32·j]` (00_scope.md R7). -/
def limb (v j : Nat) : Nat := v / 2 ^ (32 * j) % 2 ^ 32

/-- `v − limb(v, j)·2^(32·j) + w·2^(32·j)`: replace one limb (10_state.md R39). -/
def setLimb (v j : Nat) (w : Word) : Nat := v - limb v j * 2 ^ (32 * j) + w.toNat * 2 ^ (32 * j)

/-! ### Control and status registers (10_state.md R25 to R37) -/

/-- ID: the letters "RMA" and revision 1 (10_state.md R27). -/
def idWord : Word := 0x524D4101#32

/-- PARAM: L in bits [7:0], NREG = 8 in bits [15:8], 0 above (10_state.md R28). -/
def paramWord (c : Config) : Word := 0#16 ++ 8#8 ++ BitVec.ofNat 8 c.limbs

/-- CTRL as read: IRQ_EN in bit 0; SRST and the reserved bits read 0 (10_state.md R29). -/
def ctrlWord (s : State) : Word := 0#31 ++ BitVec.ofBool s.irqEn

/-- The 4-bit code of 60_exceptions.md R220. -/
def ErrCode.code : ErrCode → BitVec 4
  | .noError => 0
  | .illegalCmd => 1
  | .modulusSmall => 2
  | .modulusEven => 3
  | .operandRange => 4
  | .mrDomain => 5

/-- STATUS as read: BUSY [0], DONE [1], ERR [2], ERRCODE [11:8], every other bit 0 (10_state.md R30). -/
def statusWord (s : State) : Word :=
  0#20 ++ s.errcode.code ++ 0#5 ++ BitVec.ofBool s.err ++ BitVec.ofBool s.done ++ BitVec.ofBool s.busy

/-- `irq = STATUS.DONE AND CTRL.IRQ_EN`, at every instant (10_state.md R38). -/
def State.irq (s : State) : Bool := s.done && s.irqEn

/-- Both resets' common effect: every piece of state at the value of 70_reset_and_hazards.md R251. The host's side of
the interface (coming events, responses given) is not the RMAU's and stays (log 10). -/
def resetBlock (s : State) : State where
  cfg := s.cfg
  x := #v[0, 0, 0, 0, 0, 0, 0, 0]
  irqEn := false
  busy := false
  done := false
  err := false
  errcode := .noError
  lastcmd := 0#32
  flags := 0#32
  mrs := 0#32
  opcnt := 0#32
  inflight := none
  inputs := s.inputs
  responses := s.responses

/-! ### Issue and completion (30_encoding.md R101 to R103) -/

/-- Issue of word v by an accepted CMD write, as one step (30_encoding.md R101). It does not decode v. -/
def issue (v : Word) (s : State) : State :=
  { s with
    lastcmd := v
    done := false
    err := false
    errcode := .noError
    busy := true
    inflight := some ⟨v, s.x⟩ }

/-- What `execute` returns (30_encoding.md R102). -/
inductive Result where
  /-- `Err(code)`. -/
  | err (code : ErrCode)
  /-- `Ok(dest, flags, mrs, opcnt)`. -/
  | ok (dest : Option (Reg × Nat)) (flags : Word) (mrs : Option Word) (opcnt : Word)
deriving DecidableEq, Repr

/-- The closing lines of a completion: BUSY <- 0, DONE <- 1, nothing in flight (30_encoding.md R103). -/
def finish (s : State) : State := { s with busy := false, done := true, inflight := none }

/-- The completion of a command that ends in error, the RMAU's one way of taking an exception (60_exceptions.md R222,
R223): STATUS.ERR and ERRCODE are written, DONE is set, and no register, FLAGS, MR_S or OPCNT changes. There is no
return from it (R229): the host clears DONE, or issues again. -/
def raiseError (code : ErrCode) (s : State) : State := finish { s with err := true, errcode := code }

/-- The `Ok` branch of a completion (30_encoding.md R103). -/
def completeOk (dest : Option (Reg × Nat)) (flags : Word) (mrs : Option Word) (opcnt : Word) (s : State) : State :=
  finish { s with
    x := match dest with
      | some (d, v) => writeReg s.x d v
      | none => s.x
    flags := flags
    mrs := mrs.getD s.mrs
    opcnt := opcnt }

/-- The atomic completion step (30_encoding.md R103). -/
def complete (r : Result) (s : State) : State :=
  match r with
  | .err code => raiseError code s
  | .ok dest flags mrs opcnt => completeOk dest flags mrs opcnt s

/-- A count or exponent as a 32-bit register value; it always fits (10_state.md R35, R36, log 12). -/
def countWord (n : Nat) : Word := BitVec.ofNat 32 n

end Sys2Proof.Machine
end

