-- ==== Sys2Proof/Machine/Bus.lean ====
section
/-! DEFINITION. The bus interface: the address map, the register window, and one host transaction
(20_memory.md R60 to R73). -/

namespace Sys2Proof.Machine

/-- A platform address lies in the 8 KiB block at BASE (00_scope.md R6, 20_memory.md R61, R72). -/
def blockSelects (c : Config) (addr : Nat) : Bool := decide (c.base ≤ addr) && decide (addr < c.base + 0x2000)

/-- The events a host's access at a platform address brings: the transaction at its offset from BASE, or nothing when the
block is not addressed (20_memory.md R60, R61, log 8). -/
def platformAccess (c : Config) : Txn → List Event
  | .read addr width => if blockSelects c addr then [.bus (.read (addr - c.base) width)] else []
  | .write addr width v => if blockSelects c addr then [.bus (.write (addr - c.base) width v)] else []

/-- `access_ok(addr, n)` (20_memory.md R62). -/
def accessOk (addr width : Nat) : Bool := width == 4 && addr % 4 == 0 && decide (addr < 0x2000)

/-- The offset lies in the register window 0x1000 to 0x1FFC (10_state.md R39). -/
def inWindow (addr : Nat) : Bool := decide (0x1000 ≤ addr) && decide (addr ≤ 0x1FFC)

/-- `refused_busy(addr, write)`: the busy lock (20_memory.md R66). -/
def refusedBusy (s : State) (addr : Nat) (write : Bool) : Bool :=
  s.busy && (inWindow addr || (addr == 0x010 && write))

/-- The byte offset of limb j of register i (10_state.md R39). -/
def limbOffset (i : Reg) (j : Nat) : Nat := 0x1000 + 0x200 * i.val + 4 * j

/-- The register of a window offset (20_memory.md R64). -/
def windowReg (addr : Nat) : Reg := ⟨(addr - 0x1000) / 0x200 % 8, Nat.mod_lt _ (by decide)⟩

/-- The limb of a window offset (20_memory.md R64). -/
def windowLimb (addr : Nat) : Nat := addr % 0x200 / 4

/-- A window read: limb j < L, and 0 for L ≤ j (10_state.md R39). -/
def windowRead (s : State) (i : Reg) (j : Nat) : Word :=
  if j < s.cfg.limbs then BitVec.ofNat 32 (limb (readReg s.x i) j) else 0#32

/-- A window write: only limb j < L changes; for L ≤ j it is ignored (10_state.md R39). -/
def windowWrite (i : Reg) (j : Nat) (v : Word) (s : State) : State :=
  if j < s.cfg.limbs then { s with x := writeReg s.x i (setLimb (readReg s.x i) j v) } else s

/-- The value of a control or status register, `none` at a reserved offset (10_state.md R25, 20_memory.md R65). -/
def csrRead (s : State) (addr : Nat) : Option Word :=
  if addr = 0x000 then some idWord
  else if addr = 0x004 then some (paramWord s.cfg)
  else if addr = 0x008 then some (ctrlWord s)
  else if addr = 0x00C then some (statusWord s)
  else if addr = 0x010 then some s.lastcmd
  else if addr = 0x014 then some s.flags
  else if addr = 0x018 then some s.mrs
  else if addr = 0x01C then some s.opcnt
  else none

/-- A write to CTRL: SRST = 1 resets the whole block whatever bit 0 carries; else IRQ_EN takes bit 0
(10_state.md R29, 70_reset_and_hazards.md R252). -/
def ctrlWrite (v : Word) (s : State) : State :=
  if v[1] then resetBlock s else { s with irqEn := v[0] }

/-- A write to STATUS: `if v[1] = 1 then STATUS.DONE <- 0`, nothing else (10_state.md R31). -/
def statusWrite (v : Word) (s : State) : State :=
  if v[1] then { s with done := false } else s

/-- A write to a control or status register while the busy lock lets it through; a write to a read-only register is
ignored; `none` at a reserved offset (10_state.md R25, R37, 20_memory.md R65). -/
def csrWrite (s : State) (addr : Nat) (v : Word) : Option State :=
  if addr = 0x008 then some (ctrlWrite v s)
  else if addr = 0x00C then some (statusWrite v s)
  else if addr = 0x010 then some (issue v s)
  else if addr = 0x000 ∨ addr = 0x004 ∨ addr = 0x014 ∨ addr = 0x018 ∨ addr = 0x01C then some s
  else none

/-- `MemRead(addr, n)` (20_memory.md R60 to R66). A width other than 4 or a misaligned offset is refused "whatever the
offset" (R62, log 7); an aligned word offset from 0x2000 up is not the RMAU's (R61). -/
def busRead (s : State) (addr width : Nat) : Response :=
  if width ≠ 4 ∨ addr % 4 ≠ 0 then .busError
  else if !accessOk addr width then .notAddressed
  else if refusedBusy s addr false then .busError
  else if inWindow addr then .data (windowRead s (windowReg addr) (windowLimb addr))
  else
    match csrRead s addr with
    | some v => .data v
    | none => .busError

/-- `MemWrite(addr, n, v)`: the response and the state it leaves (20_memory.md R60 to R68). -/
def busWrite (s : State) (addr width : Nat) (v : Word) : Response × State :=
  if width ≠ 4 ∨ addr % 4 ≠ 0 then (.busError, s)
  else if !accessOk addr width then (.notAddressed, s)
  else if refusedBusy s addr true then (.busError, s)
  else if inWindow addr then (.ok, windowWrite (windowReg addr) (windowLimb addr) v s)
  else
    match csrWrite s addr v with
    | some s' => (.ok, s')
    | none => (.busError, s)

/-- Record the response of the transaction just done (log 5). -/
def respond (r : Response) (s : State) : State := { s with responses := r :: s.responses }

/-- One host transaction with its response, as one step (20_memory.md R60, R74). -/
def transact (t : Txn) (s : State) : State :=
  match t with
  | .read addr width => respond (busRead s addr width) s
  | .write addr width v =>
    match busWrite s addr width v with
    | (r, s') => respond r s'

end Sys2Proof.Machine
end

