-- ==== Sys2Proof/WellFormed.lean ====
section
/-! DEFINITION. Well-formed command words, from the field table 30_encoding.md R91 and the prose of R94 and R96.
Written apart from the match and mask table the decoder uses (R95), so that the two can be proved to agree. -/

namespace Sys2Proof

/-- The raw fields of a command word (30_encoding.md R91), reserved bits included. -/
structure CommandFields where
  op : BitVec 8
  rd : BitVec 3
  res11 : BitVec 1
  ra : BitVec 3
  res15 : BitVec 1
  rb : BitVec 3
  res19 : BitVec 1
  rm : BitVec 3
  resHigh : BitVec 9
deriving DecidableEq, Repr

/-- Which register fields an opcode uses; the others are the "0" entries of 30_encoding.md R94. -/
structure FieldUse where
  rd : Bool
  ra : Bool
  rb : Bool
  rm : Bool
deriving DecidableEq, Repr

/-- The opcode map of 30_encoding.md R94: `none` for an unassigned OP. -/
def fieldUse (op : BitVec 8) : Option FieldUse :=
  if op = 0x01#8 then some ⟨true, true, true, true⟩          -- MODMUL
  else if op = 0x02#8 then some ⟨true, true, true, true⟩     -- MONTMUL
  else if op = 0x03#8 then some ⟨true, true, false, true⟩    -- MONT_TO
  else if op = 0x04#8 then some ⟨true, true, false, true⟩    -- MONT_FROM
  else if op = 0x08#8 then some ⟨true, true, true, true⟩     -- MODEXP
  else if op = 0x10#8 then some ⟨true, true, true, false⟩    -- GCD
  else if op = 0x11#8 then some ⟨true, true, false, true⟩    -- MODINV
  else if op = 0x18#8 then some ⟨true, false, false, true⟩   -- MR_PRE
  else if op = 0x19#8 then some ⟨false, true, false, true⟩   -- MR_ROUND
  else none

/-- The OP value is in the opcode map (30_encoding.md R94, R97). -/
def CommandFields.opAssigned (f : CommandFields) : Bool := (fieldUse f.op).isSome

/-- "Bits 11, 15, 19 and 31 to 23 of every command" are 0 (30_encoding.md R96). -/
def CommandFields.reservedClear (f : CommandFields) : Bool :=
  f.res11 == 0#1 && f.res15 == 0#1 && f.res19 == 0#1 && f.resHigh == 0#9

/-- Every field the opcode map marks "0" for this OP is 0 (30_encoding.md R96). -/
def CommandFields.unusedClear (f : CommandFields) : Bool :=
  match fieldUse f.op with
  | none => true
  | some u => (u.rd || f.rd == 0#3) && (u.ra || f.ra == 0#3) && (u.rb || f.rb == 0#3) && (u.rm || f.rm == 0#3)

/-- A legal command: assigned opcode, reserved bits clear, unused fields clear (30_encoding.md R96, R97). -/
def CommandFields.wellFormed (f : CommandFields) : Bool :=
  f.opAssigned && f.reservedClear && f.unusedClear

end Sys2Proof
end

