-- ==== Sys2Proof/Decode.lean ====
section
/-! DEFINITION. The decoder, total on every 32-bit word and rejecting by name, then the encoder
(30_encoding.md R90 to R97, R108). -/

namespace Sys2Proof

/-- The raw fields of a word (30_encoding.md R91). -/
def fieldsOf (w : Word) : CommandFields where
  op := w.extractLsb' 0 8
  rd := w.extractLsb' 8 3
  res11 := w.extractLsb' 11 1
  ra := w.extractLsb' 12 3
  res15 := w.extractLsb' 15 1
  rb := w.extractLsb' 16 3
  res19 := w.extractLsb' 19 1
  rm := w.extractLsb' 20 3
  resHigh := w.extractLsb' 23 9

/-- The 3-bit unsigned register index that starts at bit `lo` (30_encoding.md R92). -/
def regAt (w : Word) (lo : Nat) : Reg := ⟨w.toNat / 2 ^ lo % 8, Nat.mod_lt _ (by decide)⟩

/-- RD, bits [10:8]. -/
def rdOf (w : Word) : Reg := regAt w 8
/-- RA, bits [14:12]. -/
def raOf (w : Word) : Reg := regAt w 12
/-- RB, bits [18:16]. -/
def rbOf (w : Word) : Reg := regAt w 16
/-- RM, bits [22:20]. -/
def rmOf (w : Word) : Reg := regAt w 20

/-- One row of the match and mask table 30_encoding.md R95, with the command its words stand for. -/
structure CommandRow where
  mnemonic : String
  pattern : Word
  mask : Word
  build : Word → Instr

/-- "A word w selects the command iff (w AND mask) = match" (30_encoding.md R95). -/
def CommandRow.selects (r : CommandRow) (w : Word) : Bool := w &&& r.mask == r.pattern

/-- The nine rows of 30_encoding.md R95. -/
def commandRows : List CommandRow :=
  [⟨"MODMUL",    0x00000001#32, 0xFF8888FF#32, fun w => .modmul (rdOf w) (raOf w) (rbOf w) (rmOf w)⟩,
   ⟨"MONTMUL",   0x00000002#32, 0xFF8888FF#32, fun w => .montmul (rdOf w) (raOf w) (rbOf w) (rmOf w)⟩,
   ⟨"MONT_TO",   0x00000003#32, 0xFF8F88FF#32, fun w => .montTo (rdOf w) (raOf w) (rmOf w)⟩,
   ⟨"MONT_FROM", 0x00000004#32, 0xFF8F88FF#32, fun w => .montFrom (rdOf w) (raOf w) (rmOf w)⟩,
   ⟨"MODEXP",    0x00000008#32, 0xFF8888FF#32, fun w => .modexp (rdOf w) (raOf w) (rbOf w) (rmOf w)⟩,
   ⟨"GCD",       0x00000010#32, 0xFFF888FF#32, fun w => .gcd (rdOf w) (raOf w) (rbOf w)⟩,
   ⟨"MODINV",    0x00000011#32, 0xFF8F88FF#32, fun w => .modinv (rdOf w) (raOf w) (rmOf w)⟩,
   ⟨"MR_PRE",    0x00000018#32, 0xFF8FF8FF#32, fun w => .mrPre (rdOf w) (rmOf w)⟩,
   ⟨"MR_ROUND",  0x00000019#32, 0xFF8F8FFF#32, fun w => .mrRound (raOf w) (rmOf w)⟩]

/-- Why a word matches no row (30_encoding.md R96, R97); at completion each is ILLEGAL_CMD. -/
inductive Reject where
  /-- OP is not in the opcode map. -/
  | unassignedOpcode (op : BitVec 8)
  /-- A 1 in bit 11, 15, 19 or 31 to 23. -/
  | reservedBitSet
  /-- A register field the command does not use is not 0. -/
  | unusedFieldSet
deriving DecidableEq, Repr

/-- The name under which a word that matches no row is rejected. -/
def rejectReason (w : Word) : Reject :=
  let f := fieldsOf w
  if !f.opAssigned then .unassignedOpcode f.op
  else if !f.reservedClear then .reservedBitSet
  else .unusedFieldSet

/-- Decode a command word: the row it matches, or a rejection by name (30_encoding.md R95 to R97). -/
def decode (w : Word) : Except Reject Instr :=
  match commandRows.find? (fun r => r.selects w) with
  | some r => .ok (r.build w)
  | none => .error (rejectReason w)

/-- The instruction the decoder reads from a table word of `nbits` bits. Every command is one 32-bit word (R90),
so a value with a bit above bit 31 is no command. -/
def decodeTableWord (nbits w : Nat) : Option Instr :=
  let v := w % 2 ^ nbits
  if v < 2 ^ 32 then
    match decode (BitVec.ofNat 32 v) with
    | .ok i => some i
    | .error _ => none
  else none

/-- `enc(OP, RD, RA, RB, RM) = OP + RD·2^8 + RA·2^12 + RB·2^16 + RM·2^20` (30_encoding.md R108). -/
def encodeFields (op : Nat) (rd ra rb rm : Reg) : Word :=
  BitVec.ofNat 32 (op + rd.val * 2 ^ 8 + ra.val * 2 ^ 12 + rb.val * 2 ^ 16 + rm.val * 2 ^ 20)

/-- The word of a command, "with each unused field 0" (30_encoding.md R94, R108). -/
def encode : Instr → Word
  | .modmul rd ra rb rm => encodeFields 0x01 rd ra rb rm
  | .montmul rd ra rb rm => encodeFields 0x02 rd ra rb rm
  | .montTo rd ra rm => encodeFields 0x03 rd ra 0 rm
  | .montFrom rd ra rm => encodeFields 0x04 rd ra 0 rm
  | .modexp rd ra rb rm => encodeFields 0x08 rd ra rb rm
  | .gcd rd ra rb => encodeFields 0x10 rd ra rb 0
  | .modinv rd ra rm => encodeFields 0x11 rd ra 0 rm
  | .mrPre rd rm => encodeFields 0x18 rd 0 0 rm
  | .mrRound ra rm => encodeFields 0x19 0 ra 0 rm

end Sys2Proof
end

