-- ==== Sys2Proof/Machine/Arith.lean ====
section
/-! DEFINITION. The arithmetic of the four units on unbounded natural numbers (00_scope.md R9), each loop in the
order of operations its rule gives. A loop recurses on a step budget that its caller sets to the bound the rule's
loop keeps (log 13); Laws/Arith.lean proves that no budget runs out. -/

namespace Sys2Proof.Machine

/-- `bitlen(v)`, with `bitlen(0) = 0` (00_scope.md R9). -/
def bitlen (v : Nat) : Nat := if v = 0 then 0 else Nat.log2 v + 1

/-- The number of one bits among the low `n` bits of `v`. -/
def popcountLow : Nat → Nat → Nat
  | 0, _ => 0
  | n + 1, v => v % 2 + popcountLow n (v / 2)

/-- `popcount(v)`, the number of one bits (00_scope.md R9). -/
def popcount (v : Nat) : Nat := popcountLow (bitlen v) v

/-- The Euclidean loop of 42_gcd_modinv.md R170: `while v != 0: (u, v) <- (v, u mod v)`. -/
def gcdLoop : Nat → Nat → Nat → Nat
  | 0, u, _ => u
  | n + 1, u, v => if v = 0 then u else gcdLoop n v (u % v)

/-- `gcd(a, b)` by the loop of R170; the remainder strictly decreases, so b + 1 rounds suffice. -/
def euclid (a b : Nat) : Nat := gcdLoop (b + 1) a b

/-- The extended Euclidean loop of 42_gcd_modinv.md section 4, which keeps only the coefficient of a: it ends with the
last non-zero remainder and its coefficient. -/
def egcdLoop : Nat → Nat → Nat → Int → Int → Nat × Int
  | 0, r0, _, t0, _ => (r0, t0)
  | n + 1, r0, r1, t0, t1 =>
    if r1 = 0 then (r0, t0) else egcdLoop n r1 (r0 % r1) t1 (t0 - (r0 / r1 : Nat) * t1)

/-- `inv_mod(a, n)` (00_scope.md R9): for gcd(a, n) = 1 and n > 1, the x in [1, n) with (a·x) mod n = 1. -/
def invMod (a n : Nat) : Nat := ((egcdLoop (n + 1) n (a % n) 0 1).2 % (n : Int)).toNat

/-- The square-and-multiply loop of 41_modexp.md R150, least significant exponent bit first; returns the result and
the count of modular multiplications. -/
def modexpLoop (N : Nat) : Nat → Nat → Nat → Nat → Nat → Nat × Nat
  | 0, _, result, _, cnt => (result, cnt)
  | n + 1, e, result, acc, cnt =>
    if e = 0 then (result, cnt)
    else if e % 2 = 1 then modexpLoop N n (e / 2) (result * acc % N) (acc * acc % N) (cnt + 1 + 1)
    else modexpLoop N n (e / 2) result (acc * acc % N) (cnt + 1)

/-- The loop of R150 from its start `result <- 1; acc <- a; e <- d; cnt <- 0`: it runs bitlen(d) rounds. -/
def modexpCounted (a d N : Nat) : Nat × Nat := modexpLoop N (bitlen d) d 1 a 0

/-- Repeated halving, `while r mod 2 = 0: r <- r div 2; s <- s + 1` (43_primality.md R190). -/
def halveLoop : Nat → Nat → Nat → Nat × Nat
  | 0, r, s => (r, s)
  | n + 1, r, s => if r % 2 = 0 then halveLoop n (r / 2) (s + 1) else (r, s)

/-- (r, s) with n − 1 = 2^s · r and r odd, for n > 1 (43_primality.md R190). -/
def oddPart (n : Nat) : Nat × Nat := halveLoop (bitlen (n - 1)) (n - 1) 0

/-- How a Miller-Rabin squaring loop ends (43_primality.md R191). -/
structure RoundEnd where
  y : Nat
  cnt : Nat
  composite : Bool
deriving DecidableEq, Repr

/-- The squaring loop of 43_primality.md R191 with `k` squarings left (k = s − 1 − j): it stops when y = n − 1, and
says composite when a square is 1. -/
def squareLoop (n : Nat) : Nat → Nat → Nat → RoundEnd
  | 0, y, cnt => ⟨y, cnt, false⟩
  | k + 1, y, cnt =>
    if y = n - 1 then ⟨y, cnt, false⟩
    else
      let y' := y * y % n
      if y' = 1 then ⟨y', cnt + 1, true⟩ else squareLoop n k y' (cnt + 1)

end Sys2Proof.Machine
end

