-- ==== Sys2Proof/Machine/Operands.lean ====
section
/-! DEFINITION. Operands of a command: its source registers, and the checks on its modulus
(30_encoding.md R92, R104; 60_exceptions.md R221). -/

namespace Sys2Proof.Machine

/-- The registers a completing command reads: the snapshot taken at issue (10_state.md R23, 30_encoding.md R104).
With no command in flight, which no completion meets, they are the registers themselves (R105, log 6). -/
def State.sources (s : State) : Regs :=
  match s.inflight with
  | some c => c.snap
  | none => s.x

/-- The first modulus check: `if N <= 1: raise Error(MODULUS_SMALL)` (40_modmul_montgomery.md R120). -/
def withModulus (N : Nat) (k : Result) : Result :=
  if N ≤ 1 then .err .modulusSmall else k

/-- Both modulus checks of the Montgomery commands, in order: MODULUS_SMALL, then MODULUS_EVEN (R120). -/
def withOddModulus (N : Nat) (k : Result) : Result :=
  withModulus N (if N % 2 = 0 then .err .modulusEven else k)

end Sys2Proof.Machine
end

