-- ==== Sys2Proof/Machine/Euclid.lean ====
section
/-! DEFINITION. The GCD and extended-Euclidean unit: GCD, MODINV (42_gcd_modinv.md). -/

namespace Sys2Proof.Machine

/-- `execute` of GCD: Euclid's algorithm, which never fails (R170). -/
def gcdResult (rd ra rb : Reg) (x : Regs) : Result :=
  .ok (some (rd, euclid (readReg x ra) (readReg x rb))) flagsClear none 0#32

/-- `execute` of MODINV: the inverse of a modulo n, or the sentinel 0 with NOINV (R171). -/
def modinvResult (rd ra rm : Reg) (x : Regs) : Result :=
  let n := readReg x rm
  withModulus n
    (let a' := readReg x ra % n
     if euclid a' n ≠ 1 then .ok (some (rd, 0)) flagsNoInverse none 0#32
     else .ok (some (rd, invMod a' n)) flagsClear none 0#32)

/-- Completion of GCD (R170). -/
def execGcd (rd ra rb : Reg) (s : State) : Host.Outcome State Fault Refusal :=
  .next (complete (gcdResult rd ra rb s.sources) s)

/-- Completion of MODINV (R171). -/
def execModinv (rd ra rm : Reg) (s : State) : Host.Outcome State Fault Refusal :=
  .next (complete (modinvResult rd ra rm s.sources) s)

end Sys2Proof.Machine
end

