-- ==== Sys2Proof/Machine/Exponent.lean ====
section
/-! DEFINITION. The modular exponentiation engine: MODEXP (41_modexp.md). -/

namespace Sys2Proof.Machine

/-- `execute` of MODEXP: the right-to-left square-and-multiply loop, for every N > 1, odd or even (R150, R152). -/
def modexpResult (rd ra rb rm : Reg) (x : Regs) : Result :=
  let a := readReg x ra
  let d := readReg x rb
  let N := readReg x rm
  withModulus N
    (let e := modexpCounted a d N
     .ok (some (rd, e.1)) flagsClear none (countWord e.2))

/-- Completion of MODEXP (R150). -/
def execModexp (rd ra rb rm : Reg) (s : State) : Host.Outcome State Fault Refusal :=
  .next (complete (modexpResult rd ra rb rm s.sources) s)

end Sys2Proof.Machine
end

