-- ==== Sys2Proof/Machine/Multiplier.lean ====
section
/-! DEFINITION. The modular and Montgomery multiplier: MODMUL, MONTMUL, MONT_TO, MONT_FROM (40_modmul_montgomery.md). -/

namespace Sys2Proof.Machine

/-- `execute` of MODMUL: (a·b) mod N (R121). -/
def modmulResult (rd ra rb rm : Reg) (x : Regs) : Result :=
  let a := readReg x ra
  let b := readReg x rb
  let N := readReg x rm
  withModulus N (.ok (some (rd, a * b % N)) flagsClear none 1#32)

/-- `execute` of MONTMUL: (a·b·R^-1) mod N, for a, b < N (R122). -/
def montmulResult (c : Config) (rd ra rb rm : Reg) (x : Regs) : Result :=
  let a := readReg x ra
  let b := readReg x rb
  let N := readReg x rm
  withOddModulus N
    (if a ≥ N ∨ b ≥ N then .err .operandRange
     else
      let Rinv := invMod (c.radix % N) N
      .ok (some (rd, a * b * Rinv % N)) flagsClear none 1#32)

/-- `execute` of MONT_TO: (a·R) mod N (R123). -/
def montToResult (c : Config) (rd ra rm : Reg) (x : Regs) : Result :=
  let a := readReg x ra
  let N := readReg x rm
  withOddModulus N (.ok (some (rd, a * c.radix % N)) flagsClear none 1#32)

/-- `execute` of MONT_FROM: (a·R^-1) mod N (R124). -/
def montFromResult (c : Config) (rd ra rm : Reg) (x : Regs) : Result :=
  let a := readReg x ra
  let N := readReg x rm
  withOddModulus N
    (let Rinv := invMod (c.radix % N) N
     .ok (some (rd, a * Rinv % N)) flagsClear none 1#32)

/-- Completion of MODMUL (R121). -/
def execModmul (rd ra rb rm : Reg) (s : State) : Host.Outcome State Fault Refusal :=
  .next (complete (modmulResult rd ra rb rm s.sources) s)

/-- Completion of MONTMUL (R122). -/
def execMontmul (rd ra rb rm : Reg) (s : State) : Host.Outcome State Fault Refusal :=
  .next (complete (montmulResult s.cfg rd ra rb rm s.sources) s)

/-- Completion of MONT_TO (R123). -/
def execMontTo (rd ra rm : Reg) (s : State) : Host.Outcome State Fault Refusal :=
  .next (complete (montToResult s.cfg rd ra rm s.sources) s)

/-- Completion of MONT_FROM (R124). -/
def execMontFrom (rd ra rm : Reg) (s : State) : Host.Outcome State Fault Refusal :=
  .next (complete (montFromResult s.cfg rd ra rm s.sources) s)

end Sys2Proof.Machine
end

