-- ==== Sys2Proof/Machine/Primality.lean ====
section
/-! DEFINITION. The Miller-Rabin datapath: MR_PRE, MR_ROUND (43_primality.md). -/

namespace Sys2Proof.Machine

/-- The trivial cases of the primality test (R190). -/
def mrClassOf (n : Nat) : MrClass :=
  if n < 2 then .notPrime
  else if n = 2 ∨ n = 3 then .prime
  else if n % 2 = 0 then .notPrime
  else .test

/-- `execute` of MR_PRE: the class to FLAGS; for TEST, r to x[RD] and s to MR_S, else 0 and 0 (R190). -/
def mrPreResult (rd rm : Reg) (x : Regs) : Result :=
  let n := readReg x rm
  match mrClassOf n with
  | .test =>
    let rs := oddPart n
    .ok (some (rd, rs.1)) (flagsOfClass .test) (some (countWord rs.2)) 0#32
  | .prime => .ok (some (rd, 0)) (flagsOfClass .prime) (some 0#32) 0#32
  | .notPrime => .ok (some (rd, 0)) (flagsOfClass .notPrime) (some 0#32) 0#32

/-- The round of R191 after its checks: y = a^r mod n, then the squaring loop unless y is 1 or n − 1. -/
def mrRoundRun (a n : Nat) : RoundEnd :=
  let rs := oddPart n
  let e := modexpCounted a rs.1 n
  if e.1 ≠ 1 ∧ e.1 ≠ n - 1 then
    let l := squareLoop n (rs.2 - 1) e.1 e.2
    ⟨l.y, l.cnt, l.composite || l.y != n - 1⟩
  else ⟨e.1, e.2, false⟩

/-- `execute` of MR_ROUND: one round with the host's witness (R191, R192). -/
def mrRoundResult (ra rm : Reg) (x : Regs) : Result :=
  let a := readReg x ra
  let n := readReg x rm
  if n % 2 = 0 ∨ n < 5 then .err .mrDomain
  else if a < 2 ∨ a > n - 2 then .err .operandRange
  else
    let e := mrRoundRun a n
    .ok none (flagsOfRound e.composite) (some (countWord (oddPart n).2)) (countWord e.cnt)

/-- Completion of MR_PRE (R190). -/
def execMrPre (rd rm : Reg) (s : State) : Host.Outcome State Fault Refusal :=
  .next (complete (mrPreResult rd rm s.sources) s)

/-- Completion of MR_ROUND (R191). -/
def execMrRound (ra rm : Reg) (s : State) : Host.Outcome State Fault Refusal :=
  .next (complete (mrRoundResult ra rm s.sources) s)

end Sys2Proof.Machine
end

