-- ==== Sys2Proof/Machine/Dispatch.lean ====
section
/-! DEFINITION. One arm per command: its completion by the engine (30_encoding.md R103). -/

namespace Sys2Proof.Machine

def exec (i : Instr) (s : State) : Host.Outcome State Fault Refusal :=
  match i with
  | .modmul rd ra rb rm => Sys2Proof.Machine.execModmul rd ra rb rm s
  | .montmul rd ra rb rm => Sys2Proof.Machine.execMontmul rd ra rb rm s
  | .montTo rd ra rm => Sys2Proof.Machine.execMontTo rd ra rm s
  | .montFrom rd ra rm => Sys2Proof.Machine.execMontFrom rd ra rm s
  | .modexp rd ra rb rm => Sys2Proof.Machine.execModexp rd ra rb rm s
  | .gcd rd ra rb => Sys2Proof.Machine.execGcd rd ra rb s
  | .modinv rd ra rm => Sys2Proof.Machine.execModinv rd ra rm s
  | .mrPre rd rm => Sys2Proof.Machine.execMrPre rd rm s
  | .mrRound ra rm => Sys2Proof.Machine.execMrRound ra rm s

end Sys2Proof.Machine
end

