-- ==== Sys2Proof/Machine/Engine.lean ====
section
/-! DEFINITION. The engine: `execute` as a pure function of the word and the snapshot (30_encoding.md R102), and the
engine's step (R103). -/

namespace Sys2Proof.Machine

/-- The command's rule applied to a snapshot (30_encoding.md R102). -/
def resultOf (c : Config) (x : Regs) : Instr → Result
  | .modmul rd ra rb rm => modmulResult rd ra rb rm x
  | .montmul rd ra rb rm => montmulResult c rd ra rb rm x
  | .montTo rd ra rm => montToResult c rd ra rm x
  | .montFrom rd ra rm => montFromResult c rd ra rm x
  | .modexp rd ra rb rm => modexpResult rd ra rb rm x
  | .gcd rd ra rb => gcdResult rd ra rb x
  | .modinv rd ra rm => modinvResult rd ra rm x
  | .mrPre rd rm => mrPreResult rd rm x
  | .mrRound ra rm => mrRoundResult ra rm x

/-- `execute(word, snap)`: decode, then the checks and the rule of the command (30_encoding.md R102). -/
def execute (c : Config) (word : Word) (snap : Regs) : Result :=
  match decode word with
  | .ok i => resultOf c snap i
  | .error _ => .err .illegalCmd

/-- The engine moves: the in-flight command completes by its meaning, an illegal word with ILLEGAL_CMD
(30_encoding.md R97, R103); with nothing in flight the engine is idle (log 3). -/
def engineMove (s : State) : Host.Outcome State Fault Refusal :=
  match s.inflight with
  | none => .next s
  | some c =>
    match decode c.word with
    | .ok i => exec i s
    | .error _ => .next (raiseError .illegalCmd s)

end Sys2Proof.Machine
end

