-- ==== Sys2Proof/Machine/Step.lean ====
section
/-! DEFINITION. One step of the machine: the next event of the total order of 20_memory.md R74. -/

namespace Sys2Proof.Machine

/-- Take the next event: a host transaction, a hardware reset, or the end of the engine's latency. When no event is
left the engine moves, so that an issued command always completes (70_reset_and_hazards.md R266, log 2). -/
def step (s : State) : Host.Outcome State Fault Refusal :=
  match s.inputs with
  | [] => engineMove s
  | .engine :: es => engineMove { s with inputs := es }
  | .bus t :: es => .next (transact t { s with inputs := es })
  | .rst :: es => .next (resetBlock { s with inputs := es })

/-- The state just after a host issued the word (30_encoding.md R101) with its latency over, so that the next step
completes it (log 14). -/
def State.withFetchWord (s : State) (nbits w : Nat) : State :=
  let t := issue (BitVec.ofNat 32 (w % 2 ^ nbits)) s
  { t with inputs := .engine :: t.inputs }

end Sys2Proof.Machine
end

