-- ==== Sys2Proof/Machine/Assembler.lean ====
section
/-! DEFINITION. The assembler: command lines of 30_encoding.md R99 and the pseudo-commands of R100. A line is given as
its mnemonic and its operands, already split at the commas (log 18). -/

namespace Sys2Proof.Machine

/-- A register name x0 to x7; any other is refused (30_encoding.md R99). -/
def regOfName (name : String) : Option Reg :=
  if name = "x0" then some 0 else if name = "x1" then some 1 else if name = "x2" then some 2
  else if name = "x3" then some 3 else if name = "x4" then some 4 else if name = "x5" then some 5
  else if name = "x6" then some 6 else if name = "x7" then some 7 else none

/-- "Mnemonics are case-insensitive" (30_encoding.md R99). -/
def sameMnemonic (a b : String) : Bool := a.toList.map Char.toUpper == b.toList.map Char.toUpper

/-- The nine command forms and the pseudo-commands on register indices; an operand count other than the one shown is
refused (30_encoding.md R99, R100). -/
def assembleRegs (mnemonic : String) (ops : List Reg) : Option Instr :=
  let is := sameMnemonic mnemonic
  match ops with
  | [p, q] =>
    if is "MR_PRE" then some (.mrPre p q)
    else if is "MR_ROUND" then some (.mrRound p q)
    else none
  | [p, q, r] =>
    if is "MONT_TO" then some (.montTo p q r)
    else if is "MONT_FROM" then some (.montFrom p q r)
    else if is "GCD" then some (.gcd p q r)
    else if is "MODINV" then some (.modinv p q r)
    else if is "MODSQR" then some (.modmul p q q r)
    else if is "MONTSQR" then some (.montmul p q q r)
    else none
  | [p, q, r, t] =>
    if is "MODMUL" then some (.modmul p q r t)
    else if is "MONTMUL" then some (.montmul p q r t)
    else if is "MODEXP" then some (.modexp p q r t)
    -- MODRED xd, xa, xm, xone expands to MODEXP xd, xa, xone, xm
    else if is "MODRED" then some (.modexp p q t r)
    else none
  | _ => none

/-- Every operand as a register index, or a refusal. -/
def regsOfNames : List String → Option (List Reg)
  | [] => some []
  | n :: rest =>
    match regOfName n, regsOfNames rest with
    | some r, some rs => some (r :: rs)
    | _, _ => none

/-- Assemble one line (30_encoding.md R99). -/
def assemble (mnemonic : String) (operands : List String) : Option Instr :=
  match regsOfNames operands with
  | some rs => assembleRegs mnemonic rs
  | none => none

/-- The command word of one line (30_encoding.md R99, R108). -/
def assembleWord (mnemonic : String) (operands : List String) : Option Word :=
  (assemble mnemonic operands).map encode

/-- A register's name (30_encoding.md R99). -/
def regName (r : Reg) : String :=
  if r = 0 then "x0" else if r = 1 then "x1" else if r = 2 then "x2" else if r = 3 then "x3"
  else if r = 4 then "x4" else if r = 5 then "x5" else if r = 6 then "x6" else "x7"

/-- The mnemonic of a command, as the opcode table spells it. -/
def mnemonicOf : Instr → String
  | .modmul _ _ _ _ => "MODMUL"
  | .montmul _ _ _ _ => "MONTMUL"
  | .montTo _ _ _ => "MONT_TO"
  | .montFrom _ _ _ => "MONT_FROM"
  | .modexp _ _ _ _ => "MODEXP"
  | .gcd _ _ _ => "GCD"
  | .modinv _ _ _ => "MODINV"
  | .mrPre _ _ => "MR_PRE"
  | .mrRound _ _ => "MR_ROUND"

/-- The operands a command's line shows, in the order RD, RA, RB, RM (30_encoding.md R99). -/
def operandsOf : Instr → List Reg
  | .modmul rd ra rb rm => [rd, ra, rb, rm]
  | .montmul rd ra rb rm => [rd, ra, rb, rm]
  | .montTo rd ra rm => [rd, ra, rm]
  | .montFrom rd ra rm => [rd, ra, rm]
  | .modexp rd ra rb rm => [rd, ra, rb, rm]
  | .gcd rd ra rb => [rd, ra, rb]
  | .modinv rd ra rm => [rd, ra, rm]
  | .mrPre rd rm => [rd, rm]
  | .mrRound ra rm => [ra, rm]

end Sys2Proof.Machine
end

