-- ==== Sys2Proof/Machine/HostProgram.lean ====
section
/-! DEFINITION. The host programs the spec writes down, as lists of events: the notation of 30_encoding.md R107, the
byte-string conversion of 20_memory.md R70, and the primality procedure of 43_primality.md R193. They are host
software, not the RMAU's behaviour (log 18). -/

namespace Sys2Proof.Machine

/-- `WR off, v` (30_encoding.md R107). -/
def hostWR (off : Nat) (v : Word) : List Event := [.bus (.write off 4 v)]

/-- `RD off` (30_encoding.md R107). -/
def hostRD (off : Nat) : List Event := [.bus (.read off 4)]

/-- Write limbs 0 to n − 1 of v to x[i]. -/
def loadLimbs (i : Reg) (v : Nat) : Nat → List Event
  | 0 => []
  | n + 1 => loadLimbs i v n ++ hostWR (limbOffset i n) (BitVec.ofNat 32 (limb v n))

/-- `LDX xi, v`: write all L limbs (30_encoding.md R107). -/
def hostLDX (c : Config) (i : Reg) (v : Nat) : List Event := loadLimbs i v c.limbs

/-- Read limbs 0 to n − 1 of x[i]. -/
def readLimbs (i : Reg) : Nat → List Event
  | 0 => []
  | n + 1 => readLimbs i n ++ hostRD (limbOffset i n)

/-- `STX xi`: read all L limbs (30_encoding.md R107). -/
def hostSTX (c : Config) (i : Reg) : List Event := readLimbs i c.limbs

/-- `sum limb_j · 2^(32·j)` over the newest n responses, the newest being limb n − 1 (30_encoding.md R107); `none`
when one of them carries no data. -/
def assembleLimbs : Nat → List Response → Option Nat
  | 0, _ => some 0
  | n + 1, .data v :: rest => (assembleLimbs n rest).map (· + v.toNat * 2 ^ (32 * n))
  | _ + 1, _ => none

/-- A command line: write the word to CMD, then poll STATUS until BUSY = 0 (30_encoding.md R107). The LATENCY lets
`polls` polls see BUSY = 1 before the completion (log 2). -/
def hostCommand (i : Instr) (polls : Nat) : List Event :=
  hostWR 0x010 (encode i) ++ List.replicate polls (.bus (.read 0x00C 4)) ++ [.engine] ++ hostRD 0x00C

/-- Limb j of a big-endian byte string B[0..m−1]: `sum over k in 0..3 of B[m−1−4j−k] · 2^(8k)`, a byte beyond the
string reading as 0 (20_memory.md R70). -/
def limbOfBytes (b : List (BitVec 8)) (j : Nat) : Nat :=
  let byte (k : Nat) : Nat := ((b.reverse[4 * j + k]?).getD 0#8).toNat
  byte 0 + byte 1 * 2 ^ 8 + byte 2 * 2 ^ 16 + byte 3 * 2 ^ 24

/-- Load a big-endian byte string: limb j for every j below n (20_memory.md R70). -/
def loadBytes (i : Reg) (b : List (BitVec 8)) : Nat → List Event
  | 0 => []
  | n + 1 => loadBytes i b n ++ hostWR (limbOffset i n) (BitVec.ofNat 32 (limbOfBytes b n))

/-- The host's `is_prime` over the RMAU (43_primality.md R193), with its witnesses given, one for each iteration:
MR_PRE settles the trivial cases, then each MR_ROUND must leave FLAGS.PRIME = 1. `none` when an MR_ROUND ends in
error (a witness the host's draw never gives). -/
def isPrimeRounds (n : Nat) : List Nat → Option Bool
  | [] => some true
  | a :: rest =>
    match mrRoundResult 0 1 #v[a, n, 0, 0, 0, 0, 0, 0] with
    | .err _ => none
    | .ok _ flags _ _ => if flagPrime flags then isPrimeRounds n rest else some false

/-- The whole procedure of 43_primality.md R193. -/
def isPrimeHost (n : Nat) (witnesses : List Nat) : Option Bool :=
  match mrPreResult 2 1 #v[0, n, 0, 0, 0, 0, 0, 0] with
  | .err _ => none
  | .ok _ flags _ _ =>
    if flagMrClass flags = MrClass.notPrime.code then some false
    else if flagMrClass flags = MrClass.prime.code then some true
    else isPrimeRounds n witnesses

end Sys2Proof.Machine
end

