-- ==== Sys2Proof/Machine/Refined.lean ====
section
/-! DEFINITION. Two ways of computing that the spec describes as an implementation's choice, beside the rules they must
agree with: the word-serial Montgomery multiplier (40_modmul_montgomery.md section 7, informative) and exponentiation
in Montgomery form (41_modexp.md R152). No step runs them. -/

namespace Sys2Proof.Machine

/-- One outer round: `t <- t + limb(a, i)·b; m <- (limb(t, 0)·n0') mod 2^32; t <- (t + m·N) div 2^32`. -/
def wordSerialRound (n0 b N t ai : Nat) : Nat :=
  let t1 := t + ai * b
  let m := limb t1 0 * n0 % 2 ^ 32
  (t1 + m * N) / 2 ^ 32

/-- The value of t after i outer rounds. -/
def wordSerialRounds (n0 a b N : Nat) : Nat → Nat
  | 0 => 0
  | i + 1 => wordSerialRound n0 b N (wordSerialRounds n0 a b N i) (limb a i)

/-- The word-serial Montgomery product with its one final conditional subtraction (section 7). -/
def wordSerialMontmul (c : Config) (a b N : Nat) : Nat :=
  let n0 := (2 ^ 32 - invMod (N % 2 ^ 32) (2 ^ 32)) % 2 ^ 32
  let t := wordSerialRounds n0 a b N c.limbs
  if t ≥ N then t - N else t

/-- The Montgomery product of 40_modmul_montgomery.md R122. -/
def montProduct (c : Config) (N a b : Nat) : Nat := a * b * invMod (c.radix % N) N % N

/-- The loop of 41_modexp.md R150 with Montgomery products (R152). -/
def montLoop (c : Config) (N : Nat) : Nat → Nat → Nat → Nat → Nat → Nat × Nat
  | 0, _, result, _, cnt => (result, cnt)
  | n + 1, e, result, acc, cnt =>
    if e = 0 then (result, cnt)
    else if e % 2 = 1 then
      montLoop c N n (e / 2) (montProduct c N result acc) (montProduct c N acc acc) (cnt + 1 + 1)
    else montLoop c N n (e / 2) result (montProduct c N acc acc) (cnt + 1)

/-- MODEXP in Montgomery form: convert 1 and a in (R123), run the loop, convert the result out (R124); the conversions
are not counted (R151). -/
def montModexp (c : Config) (a d N : Nat) : Nat × Nat :=
  let l := montLoop c N (bitlen d) d (1 * c.radix % N) (a * c.radix % N) 0
  (l.1 * invMod (c.radix % N) N % N, l.2)

end Sys2Proof.Machine
end

