-- ==== Sys2Proof/Safety.lean ====
section
/-! DEFINITION. The invariant of the RMAU's state, its runs, and what a safe run is. -/

namespace Sys2Proof.Machine

/-- What every state of an RMAU satisfies; `step` keeps each clause. -/
structure State.Inv (s : State) : Prop where
  /-- The configuration is legal (00_scope.md R6). -/
  legal : s.cfg.Legal
  /-- Every register is below 2^W (10_state.md R21, R22). -/
  regs : ∀ k : Reg, readReg s.x k < s.cfg.radix
  /-- BUSY = 1 exactly while a command is in flight (10_state.md R30, 30_encoding.md R101, R103). -/
  busy_iff : s.busy = s.inflight.isSome
  /-- BUSY = 1 implies DONE = 0 and ERR = 0 (10_state.md R30). -/
  busy_quiet : s.busy = true → s.done = false ∧ s.err = false
  /-- ERR = 1 exactly when ERRCODE ≠ 0 (10_state.md R30). -/
  err_iff : s.err = true ↔ s.errcode ≠ .noError
  /-- The snapshot equals x[0..7] from issue to completion (30_encoding.md R105). -/
  snap : ∀ c, s.inflight = some c → c.snap = s.x
  /-- LASTCMD is the word in flight (10_state.md R32, 30_encoding.md R101). -/
  word : ∀ c, s.inflight = some c → c.word = s.lastcmd
  /-- FLAGS holds one of the values the commands write (10_state.md R33): reserved bits 0, MRCLASS never 3. -/
  flags : s.flags ∈ [0x00#32, 0x01#32, 0x02#32, 0x11#32, 0x20#32]
  /-- s ≤ W − 1 (10_state.md R35). -/
  mrs : s.mrs.toNat < s.cfg.width
  /-- OPCNT ≤ 2·W (10_state.md R36). -/
  opcnt : s.opcnt.toNat ≤ 2 * s.cfg.width

/-- The reset state of the whole block, as the table 70_reset_and_hazards.md R251 lists it. -/
structure State.AtReset (s : State) : Prop where
  regs : ∀ k : Reg, readReg s.x k = 0
  id : busRead s 0x000 4 = .data 0x524D4101#32
  param : busRead s 0x004 4 = .data (0#16 ++ 8#8 ++ BitVec.ofNat 8 s.cfg.limbs)
  ctrl : busRead s 0x008 4 = .data 0#32
  irqEn : s.irqEn = false
  status : busRead s 0x00C 4 = .data 0#32
  quiet : s.busy = false ∧ s.done = false ∧ s.err = false
  errcode : s.errcode = .noError
  lastcmd : busRead s 0x010 4 = .data 0#32
  flags : busRead s 0x014 4 = .data 0#32
  mrs : busRead s 0x018 4 = .data 0#32
  opcnt : busRead s 0x01C 4 = .data 0#32
  inflight : s.inflight = none
  irq : s.irq = false

/-- The register a command writes when it succeeds: the one RD names, none for MR_ROUND (10_state.md R23). -/
def destOf : Instr → Option Reg
  | .modmul rd _ _ _ => some rd
  | .montmul rd _ _ _ => some rd
  | .montTo rd _ _ => some rd
  | .montFrom rd _ _ => some rd
  | .modexp rd _ _ _ => some rd
  | .gcd rd _ _ => some rd
  | .modinv rd _ _ => some rd
  | .mrPre rd _ => some rd
  | .mrRound _ _ => none

/-- The registers a command reads (30_encoding.md R92, R94). -/
def sourcesOf : Instr → List Reg
  | .modmul _ ra rb rm => [ra, rb, rm]
  | .montmul _ ra rb rm => [ra, rb, rm]
  | .montTo _ ra rm => [ra, rm]
  | .montFrom _ ra rm => [ra, rm]
  | .modexp _ ra rb rm => [ra, rb, rm]
  | .gcd _ ra rb => [ra, rb]
  | .modinv _ ra rm => [ra, rm]
  | .mrPre _ rm => [rm]
  | .mrRound ra rm => [ra, rm]

/-- The commands that write MR_S (10_state.md R35). -/
def writesMrs : Instr → Bool
  | .mrPre _ _ => true
  | .mrRound _ _ => true
  | .modmul _ _ _ _ => false
  | .montmul _ _ _ _ => false
  | .montTo _ _ _ => false
  | .montFrom _ _ _ => false
  | .modexp _ _ _ _ => false
  | .gcd _ _ _ => false
  | .modinv _ _ _ => false

/-- The engine is about to complete its command: one is in flight and the next event is the end of its latency
(30_encoding.md R103, log 2). -/
def State.Completing (s : State) : Prop :=
  s.inflight.isSome = true ∧ (s.inputs = [] ∨ ∃ es, s.inputs = .engine :: es)

/-- The next event is a reset: `rst`, or an accepted CTRL write with SRST = 1 (70_reset_and_hazards.md R250, R252). -/
def State.Resetting (s : State) : Prop :=
  (∃ es, s.inputs = .rst :: es) ∨ ∃ es v, s.inputs = .bus (.write 0x008 4 v) :: es ∧ v[1] = true

/-- The next event is a CMD write the RMAU accepts (30_encoding.md R101). -/
def State.Issuing (s : State) : Prop :=
  s.busy = false ∧ ∃ es v, s.inputs = .bus (.write 0x010 4 v) :: es

/-- t follows s by some number of steps. -/
inductive Reaches : State → State → Prop where
  | refl (s : State) : Reaches s s
  | tail {s t u : State} : Reaches s t → step t = .next u → Reaches s u

/-- A safe state: whatever number of steps is taken from it, the run goes on, and to a state with the invariant. -/
def Safe (s : State) : Prop :=
  ∀ n : Nat, ∃ t : State, Host.Core.run Sys2Proof.core n s = .next t ∧ t.Inv

end Sys2Proof.Machine
end

