-- ==== Sys2Proof/Certificates/Slice0/Obligations.lean ====
section
/-! DEFINITION. The statements for the provers, file by file of spec/. -/

open Sys2Proof Sys2Proof.Machine

/-! ### Steps -/

/-- The step that ends a command's latency runs the decoded command on that state (30_encoding.md R102, R103). -/
def Obligations.StepRunsTheDecodedCommand : Prop :=
  ∀ (s : State) (c : Command) (i : Instr), s.inflight = some c → decode c.word = .ok i →
    (s.inputs = [] → step s = exec i s) ∧
    (∀ es, s.inputs = .engine :: es → step s = exec i { s with inputs := es })

/-- A host transaction and a hardware reset are one step each (20_memory.md R74); with nothing in flight the engine
changes nothing (the model's reading, log 3). -/
def Obligations.StepTakesTheNextEvent : Prop :=
  ∀ (s : State) (es : List Event),
    (∀ t, s.inputs = .bus t :: es → step s = .next (transact t { s with inputs := es })) ∧
    (s.inputs = .rst :: es → step s = .next (resetBlock { s with inputs := es })) ∧
    (s.inflight = none → s.inputs = .engine :: es → step s = .next { s with inputs := es }) ∧
    (s.inflight = none → s.inputs = [] → step s = .next s)

/-- A word that matches no row completes with ILLEGAL_CMD and writes STATUS alone (30_encoding.md R97, 60_exceptions.md R223). -/
def Obligations.IllegalWordCompletesWithIllegalCmd : Prop :=
  ∀ (s : State) (c : Command) (e : Reject), s.inflight = some c → decode c.word = .error e →
    (s.inputs = [] → step s = .next
      { s with err := true, errcode := .illegalCmd, busy := false, done := true, inflight := none }) ∧
    (∀ es, s.inputs = .engine :: es → step s = .next
      { s with inputs := es, err := true, errcode := .illegalCmd, busy := false, done := true, inflight := none })

/-- The engine's step is the atomic completion of `execute` on the snapshot (30_encoding.md R102, R103), written out
from R103; it comes at an engine event, or when no event is left (log 2). -/
def Obligations.EngineStepIsTheAtomicCompletion : Prop :=
  ∀ (s : State) (c : Command) (es : List Event), s.inflight = some c →
    (s.inputs = [] ∧ es = []) ∨ s.inputs = .engine :: es →
    step s = .next
      (match execute s.cfg c.word c.snap with
        | .ok dest flags mrs opcnt =>
          { s with
            x := (match dest with | some (d, v) => writeReg s.x d v | none => s.x)
            flags := flags, mrs := (match mrs with | some m => m | none => s.mrs), opcnt := opcnt
            busy := false, done := true, inflight := none, inputs := es }
        | .err code =>
          { s with err := true, errcode := code, busy := false, done := true, inflight := none, inputs := es })

/-! ### Encoding (30_encoding.md) -/

/-- Decoding an encoded command gives it back, for every command and every operand (R95, R108). -/
def Obligations.DecodeEncodeRoundTrip : Prop :=
  ∀ i : Instr, decode (encode i) = .ok i

/-- A word that decodes is the encoding of what it decodes to: every legal word has one meaning (R95, R108). -/
def Obligations.EncodeDecodeRoundTrip : Prop :=
  ∀ (w : Word) (i : Instr), decode w = .ok i → encode i = w

/-- A word is legal exactly when its OP is assigned, its reserved bits are 0 and its unused fields are 0; the match
and mask rows agree with the field table (R96). -/
def Obligations.LegalWordsAreTheWellFormedWords : Prop :=
  ∀ w : Word,
    ((fieldsOf w).wellFormed = true ↔ ∃ i, decode w = .ok i) ∧
    ((fieldsOf w).opAssigned = true → ((fieldsOf w).reservedClear = false ∨ (fieldsOf w).unusedClear = false) →
      (∀ r ∈ commandRows, r.selects w = false) ∧ ∃ e, decode w = .error e)

/-- An illegal word is rejected under the name of what is wrong with it (R96, R97); the names are the model's own. -/
def Obligations.RejectionsAreNamed : Prop :=
  ∀ (w : Word) (e : Reject), decode w = .error e →
    (e = .unassignedOpcode (fieldsOf w).op ∧ (fieldsOf w).opAssigned = false) ∨
    (e = .reservedBitSet ∧ (fieldsOf w).opAssigned = true ∧ (fieldsOf w).reservedClear = false) ∨
    (e = .unusedFieldSet ∧ (fieldsOf w).opAssigned = true ∧ (fieldsOf w).reservedClear = true ∧
      (fieldsOf w).unusedClear = false)

/-- The match and mask table of R95, row by row: a word decodes to a command exactly when it passes that row's test;
"No two rows match the same word". -/
def Obligations.MatchAndMaskTable : Prop :=
  ∀ w : Word,
    (w &&& 0xFF8888FF#32 = 0x00000001#32 ↔ ∃ rd ra rb rm, decode w = .ok (.modmul rd ra rb rm)) ∧
    (w &&& 0xFF8888FF#32 = 0x00000002#32 ↔ ∃ rd ra rb rm, decode w = .ok (.montmul rd ra rb rm)) ∧
    (w &&& 0xFF8F88FF#32 = 0x00000003#32 ↔ ∃ rd ra rm, decode w = .ok (.montTo rd ra rm)) ∧
    (w &&& 0xFF8F88FF#32 = 0x00000004#32 ↔ ∃ rd ra rm, decode w = .ok (.montFrom rd ra rm)) ∧
    (w &&& 0xFF8888FF#32 = 0x00000008#32 ↔ ∃ rd ra rb rm, decode w = .ok (.modexp rd ra rb rm)) ∧
    (w &&& 0xFFF888FF#32 = 0x00000010#32 ↔ ∃ rd ra rb, decode w = .ok (.gcd rd ra rb)) ∧
    (w &&& 0xFF8F88FF#32 = 0x00000011#32 ↔ ∃ rd ra rm, decode w = .ok (.modinv rd ra rm)) ∧
    (w &&& 0xFF8FF8FF#32 = 0x00000018#32 ↔ ∃ rd rm, decode w = .ok (.mrPre rd rm)) ∧
    (w &&& 0xFF8F8FFF#32 = 0x00000019#32 ↔ ∃ ra rm, decode w = .ok (.mrRound ra rm)) ∧
    (∀ r q : CommandRow, r ∈ commandRows → q ∈ commandRows → r.selects w = true → q.selects w = true →
      r.mnemonic = q.mnemonic)

/-- The worked encodings of R108 and all sixteen words of 95_test_vectors.md section 2.12. The spec calls the last six
illegal; the names of the rejections are the model's own. -/
def Obligations.WrittenOutWordsDecode : Prop :=
  decode 0x00210308#32 = .ok (.modexp 3 0 1 2) ∧ decode 0x00010010#32 = .ok (.gcd 0 0 1) ∧
  decode 0x00200011#32 = .ok (.modinv 0 0 2) ∧ decode 0x00200318#32 = .ok (.mrPre 3 2) ∧
  decode 0x00201019#32 = .ok (.mrRound 1 2) ∧ decode 0x00000019#32 = .ok (.mrRound 0 0) ∧
  decode 0x00210301#32 = .ok (.modmul 3 0 1 2) ∧ decode 0x00210302#32 = .ok (.montmul 3 0 1 2) ∧
  decode 0x00200303#32 = .ok (.montTo 3 0 2) ∧ decode 0x00200304#32 = .ok (.montFrom 3 0 2) ∧
  decode 0x00110010#32 = .error .unusedFieldSet ∧ decode 0x00210318#32 = .error .unusedFieldSet ∧
  decode 0x00000800#32 = .error (.unassignedOpcode 0x00) ∧ decode 0x01000008#32 = .error .reservedBitSet ∧
  decode 0x0000001A#32 = .error (.unassignedOpcode 0x1A) ∧ decode 0x00000009#32 = .error (.unassignedOpcode 0x09)

/-- A command's own line assembles to it and to its word, and the pseudo-commands to their expansions; mnemonics are
case-insensitive; a register name outside x0 to x7 and an operand count other than the one shown are refused (R99,
R100). A line is given as its mnemonic and its operands (log 18). -/
def Obligations.AssemblerRoundTrip : Prop :=
  (∀ i : Instr, assemble (mnemonicOf i) ((operandsOf i).map regName) = some i ∧
    assembleWord (mnemonicOf i) ((operandsOf i).map regName) = some (encode i)) ∧
  (∀ xd xa xm xone : Reg,
    assemble "MODSQR" [regName xd, regName xa, regName xm] = some (.modmul xd xa xa xm) ∧
    assemble "MONTSQR" [regName xd, regName xa, regName xm] = some (.montmul xd xa xa xm) ∧
    assemble "MODRED" [regName xd, regName xa, regName xm, regName xone] = some (.modexp xd xa xone xm)) ∧
  (∀ (m m' : String) (ops : List String), m.toList.map Char.toUpper = m'.toList.map Char.toUpper →
    assemble m ops = assemble m' ops) ∧
  (∀ (m name : String) (ops : List String), (∀ r : Reg, name ≠ regName r) → name ∈ ops → assemble m ops = none) ∧
  (∀ (i : Instr) (ops : List String), ops.length ≠ (operandsOf i).length → assemble (mnemonicOf i) ops = none) ∧
  (∀ ops : List String, (ops.length ≠ 3 → assemble "MODSQR" ops = none ∧ assemble "MONTSQR" ops = none) ∧
    (ops.length ≠ 4 → assemble "MODRED" ops = none))

/-! ### Reset (70_reset_and_hazards.md) -/

/-- After either reset every piece of state holds its value of the R251 table; the reference machine starts so. -/
def Obligations.ResetLeavesTheResetTable : Prop :=
  State.reset.AtReset ∧ State.reset.cfg.limbs = 16 ∧ busRead State.reset 0x004 4 = .data 0x00000810#32 ∧
  ∀ s : State, s.Resetting → ∃ t, step s = .next t ∧ t.AtReset ∧ t.cfg = s.cfg

/-- A CTRL write with bit 1 set is answered `ok` and resets the block in that one step, busy or idle, whatever bit 0
carries, and the next transaction meets the reset state (R252). -/
def Obligations.SoftResetIsOneStep : Prop :=
  ∀ (s : State) (es : List Event) (v : Word), v[1] = true → s.inputs = .bus (.write 0x008 4 v) :: es →
    ∃ t, step s = .next t ∧ t.AtReset ∧ t.irqEn = false ∧ t.inputs = es ∧ t.responses = .ok :: s.responses ∧
      t.cfg = s.cfg

/-- A reset discards the in-flight command: however often the engine is let move afterwards, nothing completes (R253). -/
def Obligations.ResetDiscardsTheCommand : Prop :=
  ∀ (s : State) (n : Nat) (v : Word), v[1] = true → ∀ e, e = .rst ∨ e = .bus (.write 0x008 4 v) →
    s.inputs = e :: List.replicate n .engine →
    ∃ t, Host.Core.run Sys2Proof.core (n + 1) s = .next t ∧ t.AtReset

/-! ### Bus (20_memory.md, 10_state.md) -/

/-- Only an aligned 4-byte access is accepted; any other gives `bus_error` and no effect, whatever the offset (R62). -/
def Obligations.MalformedAccessIsRefused : Prop :=
  (∀ addr n : Nat, accessOk addr n = true ↔ n = 4 ∧ addr % 4 = 0 ∧ addr < 0x2000) ∧
  ∀ (s : State) (addr n : Nat) (v : Word), (n ≠ 4 ∨ addr % 4 ≠ 0) →
    transact (.read addr n) s = { s with responses := .busError :: s.responses } ∧
    transact (.write addr n v) s = { s with responses := .busError :: s.responses }

/-- An aligned word access at a reserved offset gives `bus_error` and no effect; a limb j ≥ L inside the window is not
reserved: it reads 0 and ignores writes (R65). -/
def Obligations.ReservedOffsetsAreRefused : Prop :=
  ∀ (s : State) (addr : Nat) (v : Word), addr % 4 = 0 →
    (0x020 ≤ addr → addr ≤ 0xFFC →
      transact (.read addr 4) s = { s with responses := .busError :: s.responses } ∧
      transact (.write addr 4 v) s = { s with responses := .busError :: s.responses }) ∧
    (∀ (i : Reg) (j : Nat), s.busy = false → s.cfg.limbs ≤ j → j ≤ 127 → addr = limbOffset i j →
      transact (.read addr 4) s = { s with responses := .data 0#32 :: s.responses } ∧
      transact (.write addr 4 v) s = { s with responses := .ok :: s.responses })

/-- The busy lock: while BUSY = 1 the window and a CMD write are refused with no effect, every control and status
register can be read, CTRL and STATUS can be written, and FLAGS, MR_S and OPCNT keep their values from issue on (R66). -/
def Obligations.BusyLockRefusesWindowAndCmd : Prop :=
  ∀ s : State,
    (∀ addr write, refusedBusy s addr write = true ↔
      s.busy = true ∧ ((0x1000 ≤ addr ∧ addr ≤ 0x1FFC) ∨ (addr = 0x010 ∧ write = true))) ∧
    (s.busy = true →
      (∀ (addr : Nat) (v : Word), 0x1000 ≤ addr → addr ≤ 0x1FFC →
        transact (.read addr 4) s = { s with responses := .busError :: s.responses } ∧
        transact (.write addr 4 v) s = { s with responses := .busError :: s.responses }) ∧
      (∀ v : Word, transact (.write 0x010 4 v) s = { s with responses := .busError :: s.responses }) ∧
      busRead s 0x000 4 = .data idWord ∧ busRead s 0x004 4 = .data (paramWord s.cfg) ∧
      busRead s 0x008 4 = .data (ctrlWord s) ∧
      busRead s 0x00C 4 = .data (statusWord s) ∧ busRead s 0x010 4 = .data s.lastcmd ∧
      busRead s 0x014 4 = .data s.flags ∧ busRead s 0x018 4 = .data s.mrs ∧ busRead s 0x01C 4 = .data s.opcnt ∧
      (∀ v : Word, (transact (.write 0x008 4 v) s).responses = .ok :: s.responses ∧
        (transact (.write 0x00C 4 v) s).responses = .ok :: s.responses)) ∧
    (∀ v : Word, (issue v s).flags = s.flags ∧ (issue v s).mrs = s.mrs ∧ (issue v s).opcnt = s.opcnt) ∧
    (∀ t, s.busy = true → step s = .next t → t.busy = true → t.flags = s.flags ∧ t.mrs = s.mrs ∧ t.opcnt = s.opcnt)

/-- What each control and status register reads, field by field, busy or idle (10_state.md R25 to R30, R32, R33, R35, R36). -/
def Obligations.ControlAndStatusReads : Prop :=
  ∀ s : State,
    busRead s 0x000 4 = .data 0x524D4101#32 ∧
    (∃ p, busRead s 0x004 4 = .data p ∧ (s.cfg.Legal → p.toNat = s.cfg.limbs + 8 * 2 ^ 8)) ∧
    (∃ c, busRead s 0x008 4 = .data c ∧ c.toNat = s.irqEn.toNat) ∧
    (∃ u, busRead s 0x00C 4 = .data u ∧
      u.toNat = s.busy.toNat + 2 * s.done.toNat + 4 * s.err.toNat + 2 ^ 8 * s.errcode.code.toNat) ∧
    busRead s 0x010 4 = .data s.lastcmd ∧ busRead s 0x014 4 = .data s.flags ∧
    busRead s 0x018 4 = .data s.mrs ∧ busRead s 0x01C 4 = .data s.opcnt

/-- A write to a read-only register has no effect and returns `ok`; a write's reserved bits in CTRL and STATUS are
ignored (10_state.md R37). -/
def Obligations.ReadOnlyWritesAreIgnored : Prop :=
  ∀ (s : State) (v u : Word),
    (∀ addr, addr = 0x000 ∨ addr = 0x004 ∨ addr = 0x014 ∨ addr = 0x018 ∨ addr = 0x01C →
      transact (.write addr 4 v) s = { s with responses := .ok :: s.responses }) ∧
    (v[0] = u[0] → v[1] = u[1] →
      transact (.write 0x008 4 v) s = transact (.write 0x008 4 u) s) ∧
    (v[1] = u[1] → transact (.write 0x00C 4 v) s = transact (.write 0x00C 4 u) s)

/-- A write to STATUS clears DONE if bit 1 is set, and does nothing else; ERR and ERRCODE change only at a completion, an
issue or a reset (10_state.md R31). -/
def Obligations.StatusWriteClearsDone : Prop :=
  ∀ (s : State) (v : Word),
    transact (.write 0x00C 4 v) s =
      { s with done := s.done && !v[1], responses := .ok :: s.responses } ∧
    (s.Inv → s.busy = true → transact (.write 0x00C 4 v) s = { s with responses := .ok :: s.responses }) ∧
    (∀ t, step s = .next t → t.err ≠ s.err ∨ t.errcode ≠ s.errcode → s.Completing ∨ s.Issuing ∨ s.Resetting)

/-- A write to CTRL without SRST stores bit 0 in IRQ_EN and nothing else, busy or idle (10_state.md R29). -/
def Obligations.CtrlWriteSetsIrqEnable : Prop :=
  ∀ (s : State) (v : Word), v[1] = false →
    transact (.write 0x008 4 v) s = { s with irqEn := v[0], responses := .ok :: s.responses }

/-- No read has a side effect: any number of reads leaves all but the response log unchanged, and a later read gives
what it gave before them (R67). -/
def Obligations.ReadsHaveNoSideEffect : Prop :=
  ∀ (s : State) (reads : List (Nat × Nat)),
    let t := reads.foldl (fun u p => transact (.read p.1 p.2) u) s
    { t with responses := s.responses } = s ∧ ∀ addr n, busRead t addr n = busRead s addr n

/-- The register window: limb j of x[i] at 0x1000 + 0x200·i + 4·j reads and writes that limb alone; a limb from L up
reads 0 and ignores writes (10_state.md R39). -/
def Obligations.WindowAccess : Prop :=
  ∀ (s : State) (i : Reg) (j : Nat) (v : Word), s.busy = false → j ≤ 127 →
    (0x1000 ≤ limbOffset i j ∧ limbOffset i j < 0x2000 ∧ limbOffset i j = 0x1000 + 0x200 * i.val + 4 * j) ∧
    (j < s.cfg.limbs →
      busRead s (limbOffset i j) 4 =
        .data (BitVec.ofNat 32 (readReg s.x i / 2 ^ (32 * j) % 2 ^ 32)) ∧
      transact (.write (limbOffset i j) 4 v) s =
        { s with
          x := writeReg s.x i (readReg s.x i - readReg s.x i / 2 ^ (32 * j) % 2 ^ 32 * 2 ^ (32 * j)
            + v.toNat * 2 ^ (32 * j))
          responses := .ok :: s.responses }) ∧
    (s.cfg.limbs ≤ j →
      busRead s (limbOffset i j) 4 = .data 0#32 ∧
      transact (.write (limbOffset i j) 4 v) s = { s with responses := .ok :: s.responses })

/-- A limb reads back what was written to it, and every other limb of every register as before (10_state.md R39,
70_reset_and_hazards.md R262). -/
def Obligations.WindowReadAfterWrite : Prop :=
  ∀ (s : State) (i k : Reg) (j l : Nat) (v : Word), s.busy = false → j < s.cfg.limbs → j ≤ 127 → l ≤ 127 →
    busRead (transact (.write (limbOffset i j) 4 v) s) (limbOffset i j) 4 = .data v ∧
    ((k, l) ≠ (i, j) →
      busRead (transact (.write (limbOffset i j) 4 v) s) (limbOffset k l) 4 = busRead s (limbOffset k l) 4)

/-- A transaction answered `bus_error` changes no state: not STATUS, not a register, and it raises no interrupt
(60_exceptions.md R224). -/
def Obligations.BusErrorChangesNothing : Prop :=
  ∀ (s : State) (t : Txn), (transact t s).responses = .busError :: s.responses →
    transact t s = { s with responses := .busError :: s.responses } ∧ (transact t s).irq = s.irq

/-- BASE places the block: a platform access in the 8 KiB from BASE is the transaction at its offset, and no other access
reaches the RMAU (00_scope.md R6, 20_memory.md R60, R61; log 8); BASE being 8 KiB-aligned, the offset is aligned as the address
is. A transaction given at an aligned offset from 0x2000 up changes no state of the RMAU; its response `notAddressed` is
the model's reading (log 7). -/
def Obligations.OutsideTheBlockNothingChanges : Prop :=
  (∀ (c : Config) (addr width : Nat) (v : Word),
    (∀ off < 0x2000, addr = c.base + off →
      platformAccess c (.read addr width) = [.bus (.read off width)] ∧
      platformAccess c (.write addr width v) = [.bus (.write off width v)] ∧
      (c.Legal → (addr % 4 = 0 ↔ off % 4 = 0))) ∧
    (addr < c.base ∨ c.base + 0x2000 ≤ addr →
      platformAccess c (.read addr width) = [] ∧ platformAccess c (.write addr width v) = [])) ∧
  ∀ (s : State) (addr : Nat) (v : Word), 0x2000 ≤ addr → addr % 4 = 0 →
    transact (.read addr 4) s = { s with responses := .notAddressed :: s.responses } ∧
    transact (.write addr 4 v) s = { s with responses := .notAddressed :: s.responses }

/-! ### Issue and completion (30_encoding.md) -/

/-- A CMD write while idle is answered `ok` and issues the word, legal or not, in one step; while busy it is refused and
does nothing; an illegal word fails at completion (R101). -/
def Obligations.CmdWriteIssues : Prop :=
  ∀ (s : State) (v : Word),
    (s.busy = false →
      transact (.write 0x010 4 v) s =
        { s with
          lastcmd := v, done := false, err := false, errcode := .noError, busy := true
          inflight := some ⟨v, s.x⟩, responses := .ok :: s.responses }) ∧
    (s.busy = true → transact (.write 0x010 4 v) s = { s with responses := .busError :: s.responses }) ∧
    (∀ e, s.busy = false → decode v = .error e →
      ∃ t, engineMove (transact (.write 0x010 4 v) s) = .next t ∧ t.err = true ∧ t.errcode = .illegalCmd)

/-- From the CMD write to the completion: whatever number of STATUS polls the latency lets in, the host sees BUSY = 1
in each, the command then runs on the registers as they were at the CMD write, and the last poll sees BUSY = 0
(R101 to R103, R107; 20_memory.md R75). -/
def Obligations.CommandLineRunsToCompletion : Prop :=
  ∀ (s : State) (i : Instr) (polls : Nat), s.busy = false → s.inputs = hostCommand i polls →
    ∃ t u, exec i { issue (encode i) s with inputs := [] } = .next u ∧
      Host.Core.run Sys2Proof.core (polls + 3) s = .next t ∧
      t = { u with responses := .data (statusWord u) :: (List.replicate polls (.data 0x1#32) ++ .ok :: s.responses) } ∧
      u.busy = false ∧ u.done = true ∧ (issue (encode i) s).sources = s.x

/-! ### The commands: results, with all else unchanged (40 to 43) -/

/-- MODMUL (40_modmul_montgomery.md R121): result, and the error. -/
def Obligations.ModmulCompletes : Prop :=
  ∀ (rd ra rb rm : Reg) (s : State),
    let a := readReg s.sources ra
    let b := readReg s.sources rb
    let N := readReg s.sources rm
    (1 < N → exec (.modmul rd ra rb rm) s = .next
      { s with
        x := writeReg s.x rd (a * b % N), flags := 0#32, opcnt := 1#32
        busy := false, done := true, inflight := none }) ∧
    (N ≤ 1 → exec (.modmul rd ra rb rm) s = .next
      { s with err := true, errcode := .modulusSmall, busy := false, done := true, inflight := none })

/-- MONTMUL (R122): the result v is the one value below N with v·R ≡ a·b modulo N. -/
def Obligations.MontmulCompletes : Prop :=
  ∀ (rd ra rb rm : Reg) (s : State),
    let a := readReg s.sources ra
    let b := readReg s.sources rb
    let N := readReg s.sources rm
    1 < N → N % 2 = 1 → a < N → b < N →
    ∃ v, v < N ∧ v * 2 ^ (32 * s.cfg.limbs) % N = a * b % N ∧
      exec (.montmul rd ra rb rm) s = .next
        { s with
          x := writeReg s.x rd v, flags := 0#32, opcnt := 1#32
          busy := false, done := true, inflight := none }

/-- MONT_TO (R123): (a·R) mod N for every a. -/
def Obligations.MontToCompletes : Prop :=
  ∀ (rd ra rm : Reg) (s : State),
    let a := readReg s.sources ra
    let N := readReg s.sources rm
    1 < N → N % 2 = 1 →
    exec (.montTo rd ra rm) s = .next
      { s with
        x := writeReg s.x rd (a * 2 ^ (32 * s.cfg.limbs) % N), flags := 0#32, opcnt := 1#32
        busy := false, done := true, inflight := none }

/-- MONT_FROM (R124): the result v is the one value below N with v·R ≡ a modulo N, for every a. -/
def Obligations.MontFromCompletes : Prop :=
  ∀ (rd ra rm : Reg) (s : State),
    let a := readReg s.sources ra
    let N := readReg s.sources rm
    1 < N → N % 2 = 1 →
    ∃ v, v < N ∧ v * 2 ^ (32 * s.cfg.limbs) % N = a % N ∧
      exec (.montFrom rd ra rm) s = .next
        { s with
          x := writeReg s.x rd v, flags := 0#32, opcnt := 1#32
          busy := false, done := true, inflight := none }

/-- MODEXP (41_modexp.md R150, R151): a^d mod N for every a, d and N > 1, odd or even, and the count bitlen(d) +
popcount(d), here the number and the sum of d's binary digits. -/
def Obligations.ModexpCompletes : Prop :=
  ∀ (rd ra rb rm : Reg) (s : State),
    let a := readReg s.sources ra
    let d := readReg s.sources rb
    let N := readReg s.sources rm
    (1 < N → exec (.modexp rd ra rb rm) s = .next
      { s with
        x := writeReg s.x rd (a ^ d % N), flags := 0#32
        opcnt := BitVec.ofNat 32 ((Nat.digits 2 d).length + (Nat.digits 2 d).sum)
        busy := false, done := true, inflight := none }) ∧
    (N ≤ 1 → exec (.modexp rd ra rb rm) s = .next
      { s with err := true, errcode := .modulusSmall, busy := false, done := true, inflight := none })

/-- GCD (42_gcd_modinv.md R170): the greatest common divisor, for all operands. -/
def Obligations.GcdCompletes : Prop :=
  ∀ (rd ra rb : Reg) (s : State),
    exec (.gcd rd ra rb) s = .next
      { s with
        x := writeReg s.x rd (Nat.gcd (readReg s.sources ra) (readReg s.sources rb))
        flags := 0#32, opcnt := 0#32, busy := false, done := true, inflight := none }

/-- MODINV (R171): the inverse in [1, n), or the sentinel 0 with NOINV, or MODULUS_SMALL. -/
def Obligations.ModinvCompletes : Prop :=
  ∀ (rd ra rm : Reg) (s : State),
    let a := readReg s.sources ra
    let n := readReg s.sources rm
    (1 < n → Nat.gcd a n = 1 → ∃ v, 1 ≤ v ∧ v < n ∧ a * v % n = 1 ∧
      exec (.modinv rd ra rm) s = .next
        { s with
          x := writeReg s.x rd v, flags := 0#32, opcnt := 0#32
          busy := false, done := true, inflight := none }) ∧
    (1 < n → Nat.gcd a n ≠ 1 → exec (.modinv rd ra rm) s = .next
      { s with
        x := writeReg s.x rd 0, flags := 0x00000002#32, opcnt := 0#32
        busy := false, done := true, inflight := none }) ∧
    (n ≤ 1 → exec (.modinv rd ra rm) s = .next
      { s with err := true, errcode := .modulusSmall, busy := false, done := true, inflight := none })

/-- MR_PRE (43_primality.md R190): NOTPRIME, PRIME, or TEST with n − 1 = 2^e · r and r odd. -/
def Obligations.MrPreCompletes : Prop :=
  ∀ (rd rm : Reg) (s : State),
    let n := readReg s.sources rm
    (n < 2 ∨ (4 ≤ n ∧ n % 2 = 0) → exec (.mrPre rd rm) s = .next
      { s with
        x := writeReg s.x rd 0, flags := 0x00000000#32, mrs := 0#32, opcnt := 0#32
        busy := false, done := true, inflight := none }) ∧
    (n = 2 ∨ n = 3 → exec (.mrPre rd rm) s = .next
      { s with
        x := writeReg s.x rd 0, flags := 0x00000011#32, mrs := 0#32, opcnt := 0#32
        busy := false, done := true, inflight := none }) ∧
    (5 ≤ n → n % 2 = 1 → ∃ r e, r % 2 = 1 ∧ 1 ≤ e ∧ 2 ^ e * r = n - 1 ∧
      exec (.mrPre rd rm) s = .next
        { s with
          x := writeReg s.x rd r, flags := 0x00000020#32, mrs := BitVec.ofNat 32 e, opcnt := 0#32
          busy := false, done := true, inflight := none })

/-- MR_ROUND (R191, R192): with n − 1 = 2^e · r, r odd, and y_j = a^(2^j·r) mod n, the loop makes q squarings, q being
the first index whose y_q is 1 or n − 1, or e − 1; the round passes iff a^r mod n = 1 or some y_j with j < e is n − 1.
No big-number register is written. -/
def Obligations.MrRoundCompletes : Prop :=
  ∀ (ra rm : Reg) (s : State),
    let a := readReg s.sources ra
    let n := readReg s.sources rm
    n % 2 = 1 → 5 ≤ n → 2 ≤ a → a ≤ n - 2 →
    ∃ r e q : Nat, ∃ pass : Bool, r % 2 = 1 ∧ 2 ^ e * r = n - 1 ∧ q ≤ e - 1 ∧
      (∀ j < q, a ^ (2 ^ j * r) % n ≠ 1 ∧ a ^ (2 ^ j * r) % n ≠ n - 1) ∧
      (q = e - 1 ∨ a ^ (2 ^ q * r) % n = 1 ∨ a ^ (2 ^ q * r) % n = n - 1) ∧
      (pass = true ↔ a ^ r % n = 1 ∨ ∃ j < e, a ^ (2 ^ j * r) % n = n - 1) ∧
      exec (.mrRound ra rm) s = .next
        { s with
          flags := if pass then 0x00000001#32 else 0x00000000#32
          mrs := BitVec.ofNat 32 e
          opcnt := BitVec.ofNat 32 ((Nat.digits 2 r).length + (Nat.digits 2 r).sum + q)
          busy := false, done := true, inflight := none }

/-! ### Frames and errors (10_state.md, 60_exceptions.md) -/

/-- The error codes and the order of the checks (60_exceptions.md R220, R221), for the commands that raise more than
one; every such completion writes STATUS alone. -/
def Obligations.ErrorsComeInCheckOrder : Prop :=
  ∀ (rd ra rb rm : Reg) (s : State),
    let a := readReg s.sources ra
    let b := readReg s.sources rb
    let N := readReg s.sources rm
    let failed (code : ErrCode) : Host.Outcome State Fault Refusal :=
      .next { s with err := true, errcode := code, busy := false, done := true, inflight := none }
    (N ≤ 1 → exec (.montmul rd ra rb rm) s = failed .modulusSmall ∧
      exec (.montTo rd ra rm) s = failed .modulusSmall ∧ exec (.montFrom rd ra rm) s = failed .modulusSmall) ∧
    (1 < N → N % 2 = 0 → exec (.montmul rd ra rb rm) s = failed .modulusEven ∧
      exec (.montTo rd ra rm) s = failed .modulusEven ∧ exec (.montFrom rd ra rm) s = failed .modulusEven) ∧
    (1 < N → N % 2 = 1 → N ≤ a ∨ N ≤ b → exec (.montmul rd ra rb rm) s = failed .operandRange) ∧
    (N % 2 = 0 ∨ N < 5 → exec (.mrRound ra rm) s = failed .mrDomain) ∧
    (N % 2 = 1 → 5 ≤ N → a < 2 ∨ N - 2 < a → exec (.mrRound ra rm) s = failed .operandRange)

/-- The codes' numbers, and the only ones a command can report (R220). -/
def Obligations.ErrorCodesAreThoseOfTheTable : Prop :=
  (ErrCode.noError.code = 0 ∧ ErrCode.illegalCmd.code = 1 ∧ ErrCode.modulusSmall.code = 2 ∧
    ErrCode.modulusEven.code = 3 ∧ ErrCode.operandRange.code = 4 ∧ ErrCode.mrDomain.code = 5) ∧
  ∀ (i : Instr) (s t : State), s.errcode = .noError → exec i s = .next t →
    match i with
    | .gcd _ _ _ | .mrPre _ _ => t.errcode = .noError
    | .modmul _ _ _ _ | .modexp _ _ _ _ | .modinv _ _ _ => t.errcode = .noError ∨ t.errcode = .modulusSmall
    | .montTo _ _ _ | .montFrom _ _ _ =>
      t.errcode = .noError ∨ t.errcode = .modulusSmall ∨ t.errcode = .modulusEven
    | .montmul _ _ _ _ =>
      t.errcode = .noError ∨ t.errcode = .modulusSmall ∨ t.errcode = .modulusEven ∨ t.errcode = .operandRange
    | .mrRound _ _ => t.errcode = .noError ∨ t.errcode = .mrDomain ∨ t.errcode = .operandRange

/-- A command that ends in error, an illegal word among them, writes no register, leaves FLAGS, MR_S and OPCNT, sets ERR,
ERRCODE and DONE and clears BUSY, and so raises the interrupt like a successful one; LASTCMD and the operands stay
(60_exceptions.md R222, R223). -/
def Obligations.ErrorWritesStatusAlone : Prop :=
  (∀ (i : Instr) (s t : State), s.err = false → exec i s = .next t → t.err = true →
    t = { s with err := true, errcode := t.errcode, busy := false, done := true, inflight := none } ∧
    t.errcode ≠ .noError ∧ t.irq = s.irqEn) ∧
  (∀ s t : State, s.Completing → s.err = false → step s = .next t → t.err = true →
    t = { s with
      err := true, errcode := t.errcode, busy := false, done := true, inflight := none, inputs := s.inputs.tail } ∧
    t.errcode ≠ .noError ∧ t.irq = s.irqEn ∧ busRead t 0x010 4 = busRead s 0x010 4)

/-- The frame of every command: it writes at most the register RD names, MR_S only for the Miller-Rabin commands, and
nothing of the configuration, IRQ_EN, LASTCMD or the host's side; every window word outside the slot of RD reads as
before (10_state.md R23, R35). -/
def Obligations.CommandsWriteAtMostTheirDestination : Prop :=
  ∀ (i : Instr) (s t : State), exec i s = .next t →
    t.cfg = s.cfg ∧ t.irqEn = s.irqEn ∧ t.lastcmd = s.lastcmd ∧ t.inputs = s.inputs ∧ t.responses = s.responses ∧
    t.busy = false ∧ t.done = true ∧ t.inflight = none ∧
    (∀ k : Reg, destOf i ≠ some k → readReg t.x k = readReg s.x k ∧
      ∀ j : Nat, windowRead t k j = windowRead s k j) ∧
    (writesMrs i = false → t.mrs = s.mrs) ∧
    (t.err = s.err ∨ t.err = true)

/-- A successful command writes the whole of FLAGS: the bits its rule defines, every other bit 0; a command that ends in
error leaves FLAGS (10_state.md R34). -/
def Obligations.SuccessWritesAllOfFlags : Prop :=
  ∀ (i : Instr) (s t : State), s.err = false → exec i s = .next t →
    (t.err = true → t.flags = s.flags) ∧
    (t.err = false →
      match i with
      | .modinv _ _ _ => t.flags = 0x00000000#32 ∨ t.flags = 0x00000002#32
      | .mrPre _ _ => t.flags = 0x00000000#32 ∨ t.flags = 0x00000011#32 ∨ t.flags = 0x00000020#32
      | .mrRound _ _ => t.flags = 0x00000000#32 ∨ t.flags = 0x00000001#32
      | .modmul _ _ _ _ | .montmul _ _ _ _ | .montTo _ _ _ | .montFrom _ _ _ | .modexp _ _ _ _ | .gcd _ _ _ =>
        t.flags = 0x00000000#32)

/-- The result of a command is a function of its word and its source registers alone: two states that agree on the
registers it reads give the same error or the same destination value, FLAGS, MR_S and OPCNT (R40, R104). -/
def Obligations.ResultDependsOnSourcesAlone : Prop :=
  ∀ (i : Instr) (s s' t t' : State), s.cfg = s'.cfg → s.err = s'.err → s.errcode = s'.errcode →
    (∀ k ∈ sourcesOf i, readReg s.sources k = readReg s'.sources k) →
    exec i s = .next t → exec i s' = .next t' →
    t.err = t'.err ∧ t.errcode = t'.errcode ∧
    (s.err = false → t.err = false →
      t.flags = t'.flags ∧ t.opcnt = t'.opcnt ∧ (writesMrs i = true → t.mrs = t'.mrs) ∧
      ∀ d, destOf i = some d → readReg t.x d = readReg t'.x d)

/-- The life of the interrupt level (10_state.md R38, 60_exceptions.md R225): every completion sets DONE, so `irq` follows
IRQ_EN; a STATUS write with bit 1, an issue and a reset clear it; setting IRQ_EN while DONE = 1 asserts it at once; a bus
error leaves it, and it is never high but for DONE or a completion. -/
def Obligations.InterruptLevelLifecycle : Prop :=
  State.reset.irq = false ∧
  (∀ s : State, s.irq = true ↔ s.done = true ∧ s.irqEn = true) ∧
  (∀ (s : State), s.Completing → ∃ t, step s = .next t ∧ t.done = true ∧ t.irq = s.irqEn) ∧
  (∀ (s : State) (v : Word), v[1] = true → (transact (.write 0x00C 4 v) s).irq = false) ∧
  (∀ (s : State) (v : Word), s.busy = false → (transact (.write 0x010 4 v) s).irq = false) ∧
  (∀ s : State, (resetBlock s).irq = false) ∧
  (∀ (s : State) (v : Word), v[0] = true → v[1] = false →
    (transact (.write 0x008 4 v) s).irq = s.done) ∧
  (∀ (s : State) (t : Txn), (transact t s).responses = .busError :: s.responses → (transact t s).irq = s.irq) ∧
  (∀ s t : State, step s = .next t → t.irq = true → s.done = true ∨ s.Completing)

/-! ### Whole-machine rules -/

/-- Every step keeps the invariant of the state (10_state.md R21, R22, R30, R33, R35, R36; 30_encoding.md R105). -/
def Obligations.StepKeepsTheInvariant : Prop :=
  ∀ s t : State, s.Inv → step s = .next t → t.Inv

/-- The invariant holds after reset, in every legal configuration. -/
def Obligations.ResetHasTheInvariant : Prop :=
  State.reset.Inv ∧ ∀ c : Config, c.Legal → (State.resetOf c).Inv

/-- From a state with the invariant every run goes on, through states with the invariant (60_exceptions.md R228,
70_reset_and_hazards.md R266). -/
def Obligations.InvariantStatesAreSafe : Prop :=
  ∀ s : State, s.Inv → Safe s

/-- Every issued command completes or is discarded: once the host's finitely many coming events are done and the engine
has moved, the RMAU is idle (70_reset_and_hazards.md R266). That the engine moves when no event is left is how the model
says fairness (log 2). -/
def Obligations.EveryCommandEnds : Prop :=
  ∀ s : State, s.Inv → ∃ t, Host.Core.run Sys2Proof.core (s.inputs.length + 1) s = .next t ∧
    t.busy = false ∧ t.inflight = none ∧ t.inputs = []

/-- The registers change only by an accepted window write, a completion or a reset (20_memory.md R74, R81). -/
def Obligations.OnlyTheseEventsChangeRegisters : Prop :=
  ∀ s t : State, step s = .next t → t.x ≠ s.x →
    s.Completing ∨ s.Resetting ∨
    ∃ es i j v, s.busy = false ∧ j < s.cfg.limbs ∧ j ≤ 127 ∧ s.inputs = .bus (.write (limbOffset i j) 4 v) :: es

/-- BUSY rises only at an issue and falls only at a completion or a reset; DONE rises only at a completion and falls only
at an issue, a reset or a STATUS write with bit 1; LASTCMD changes only at an issue or a reset; IRQ_EN only at a CTRL write
or a reset; FLAGS, MR_S and OPCNT only at a completion or a reset (10_state.md R29 to R32; 60_exceptions.md R225;
70_reset_and_hazards.md R253, R258). -/
def Obligations.OnlyTheseEventsChangeStatusAndResults : Prop :=
  ∀ s t : State, step s = .next t →
    (s.busy = false → t.busy = true → s.Issuing) ∧
    (s.busy = true → t.busy = false → s.Completing ∨ s.Resetting) ∧
    (s.done = false → t.done = true → s.Completing) ∧
    (s.done = true → t.done = false →
      s.Issuing ∨ s.Resetting ∨ ∃ es v, s.inputs = .bus (.write 0x00C 4 v) :: es ∧ v[1] = true) ∧
    (t.lastcmd ≠ s.lastcmd → s.Issuing ∨ s.Resetting) ∧
    (t.irqEn ≠ s.irqEn → s.Resetting ∨ ∃ es v, s.inputs = .bus (.write 0x008 4 v) :: es) ∧
    (t.flags ≠ s.flags ∨ t.mrs ≠ s.mrs ∨ t.opcnt ≠ s.opcnt → s.Completing ∨ s.Resetting)

/-- The work bound (70_reset_and_hazards.md R264): OPCNT of a MODEXP is exactly bitlen(d) + popcount(d) and at most 2W;
OPCNT of an MR_ROUND is at most 2·bitlen(r) + e − 1, with n − 1 = 2^e · r. -/
def Obligations.WorkIsBounded : Prop :=
  ∀ (s t : State), s.Inv →
    (∀ rd ra rb rm, 1 < readReg s.sources rm → exec (.modexp rd ra rb rm) s = .next t →
      t.opcnt.toNat = bitlen (readReg s.sources rb) + popcount (readReg s.sources rb) ∧
      t.opcnt.toNat ≤ 2 * s.cfg.width) ∧
    (∀ ra rm r e, readReg s.sources rm % 2 = 1 → 5 ≤ readReg s.sources rm → 2 ≤ readReg s.sources ra →
      readReg s.sources ra ≤ readReg s.sources rm - 2 → r % 2 = 1 → 2 ^ e * r = readReg s.sources rm - 1 →
      exec (.mrRound ra rm) s = .next t → t.opcnt.toNat ≤ 2 * bitlen r + e - 1)

/-! ### Laws of the arithmetic (the source's testable properties) -/

/-- MONT_FROM(MONTMUL(MONT_TO(a), MONT_TO(b))) = MODMUL(a, b) = (a·b) mod N, each command issued after the one before has
completed, for every a and b; MODSQR is the power law for d = 2 (40_modmul_montgomery.md R125). The first clause says what
the four commands leave for every choice of registers that keeps N: a conversion that overwrites an operand still to be
read changes that operand. -/
def Obligations.MontgomeryDomainProduct : Prop :=
  ∀ (s : State) (ra rb rm r1 r2 r3 r4 : Reg),
    let a := readReg s.x ra
    let b := readReg s.x rb
    let N := readReg s.x rm
    let R := 2 ^ (32 * s.cfg.limbs)
    let b' := if r1 = rb then a * R % N else b
    let a' := if r2 = r1 then b' else a
    1 < N → N % 2 = 1 → r1 ≠ rm → r2 ≠ rm → r3 ≠ rm →
    (∃ s1 s2 s3 s4,
      exec (.montTo r1 ra rm) (issue (encode (.montTo r1 ra rm)) s) = .next s1 ∧
      exec (.montTo r2 rb rm) (issue (encode (.montTo r2 rb rm)) s1) = .next s2 ∧
      exec (.montmul r3 r1 r2 rm) (issue (encode (.montmul r3 r1 r2 rm)) s2) = .next s3 ∧
      exec (.montFrom r4 r3 rm) (issue (encode (.montFrom r4 r3 rm)) s3) = .next s4 ∧
      readReg s4.x r4 = a' * b' % N ∧ (r1 ≠ rb → r2 ≠ r1 → readReg s4.x r4 = a * b % N)) ∧
    (∃ m, exec (.modmul r4 ra rb rm) (issue (encode (.modmul r4 ra rb rm)) s) = .next m ∧
      readReg m.x r4 = a * b % N) ∧
    ∃ u, exec (.modmul r4 ra ra rm) (issue (encode (.modmul r4 ra ra rm)) s) = .next u ∧
      readReg u.x r4 = a ^ 2 % N

/-- The laws of GCD and MODINV: gcd(a, b) = gcd(b, a) and it divides both; (a·MODINV(a, n)) mod n = 1 when
gcd(a, n) = 1; MODINV(a, n) = 0 when gcd(a, n) > 1 (42_gcd_modinv.md R172). -/
def Obligations.GcdAndInverseLaws : Prop :=
  ∀ (s : State) (rd ra rb : Reg),
    let a := readReg s.sources ra
    let b := readReg s.sources rb
    (∃ t u, exec (.gcd rd ra rb) s = .next t ∧ exec (.gcd rd rb ra) s = .next u ∧
      readReg t.x rd = readReg u.x rd ∧ readReg t.x rd ∣ a ∧ readReg t.x rd ∣ b ∧
      ∀ k, k ∣ a → k ∣ b → k ∣ readReg t.x rd) ∧
    (1 < b → ∃ t, exec (.modinv rd ra rb) s = .next t ∧
      (Nat.gcd a b = 1 → a * readReg t.x rd % b = 1) ∧ (1 < Nat.gcd a b → readReg t.x rd = 0))

/-- A prime candidate passes the round with every witness in [2, n − 2] (43_primality.md R191). -/
def Obligations.PrimesPassEveryWitness : Prop :=
  ∀ (s : State) (ra rm : Reg), Nat.Prime (readReg s.sources rm) → 5 ≤ readReg s.sources rm →
    2 ≤ readReg s.sources ra → readReg s.sources ra ≤ readReg s.sources rm - 2 →
    ∃ t, exec (.mrRound ra rm) s = .next t ∧ t.err = s.err ∧ flagPrime t.flags = true

/-- The host's procedure answers true for every prime, and false for a composite whenever a witness exposes it; with no
witness it answers true for every candidate that is not trivial (R193). The procedure is host software, its witnesses
given as a list (log 18). -/
def Obligations.HostPrimalityProcedure : Prop :=
  (∀ (n : Nat) (ws : List Nat), Nat.Prime n → (∀ a ∈ ws, 2 ≤ a ∧ a ≤ n - 2) → isPrimeHost n ws = some true) ∧
  (∀ n, n < 2 ∨ (4 ≤ n ∧ n % 2 = 0) → ∀ ws, isPrimeHost n ws = some false) ∧
  (∀ n, 5 ≤ n → n % 2 = 1 → isPrimeHost n [] = some true) ∧
  (∀ (n : Nat) (ws : List Nat), 5 ≤ n → n % 2 = 1 → (∀ a ∈ ws, 2 ≤ a ∧ a ≤ n - 2) →
    (isPrimeHost n ws = some false ↔ ∃ a ∈ ws, (mrRoundRun a n).composite = true))

/-- The RSA round trip over two MODEXP commands, the second issued after the first has completed: with n = p·q for
distinct primes and e·d ≡ 1 modulo (p−1)(q−1), every m < n comes back (41_modexp.md R153; 95_test_vectors.md S6, S7). -/
def Obligations.RsaRoundTrip : Prop :=
  ∀ (s : State) (p q : Nat) (rc rt rmsg re rk rn : Reg), Nat.Prime p → Nat.Prime q → p ≠ q →
    readReg s.x rn = p * q → readReg s.x rmsg < p * q →
    readReg s.x re * readReg s.x rk % ((p - 1) * (q - 1)) = 1 % ((p - 1) * (q - 1)) → rc ≠ rk → rc ≠ rn →
    ∃ u v, exec (.modexp rc rmsg re rn) (issue (encode (.modexp rc rmsg re rn)) s) = .next u ∧
      exec (.modexp rt rc rk rn) (issue (encode (.modexp rt rc rk rn)) u) = .next v ∧
      readReg v.x rt = readReg s.x rmsg

/-- The word-serial Montgomery multiplier computes MONTMUL's result in every configuration: it agrees with the command's
own rule, and with the Montgomery product (40_modmul_montgomery.md R122 and section 7). -/
def Obligations.WordSerialMultiplierRefinesMontmul : Prop :=
  ∀ (c : Config) (x : Regs) (rd ra rb rm : Reg),
    let a := readReg x ra
    let b := readReg x rb
    let N := readReg x rm
    1 < N → N % 2 = 1 → N < c.radix → a < N → b < N →
    wordSerialMontmul c a b N = montProduct c N a b ∧
    montmulResult c rd ra rb rm x = .ok (some (rd, wordSerialMontmul c a b N)) 0#32 none 1#32

/-- For odd N, exponentiation in Montgomery form gives the result and the count of the plain loop (41_modexp.md R152). -/
def Obligations.MontgomeryExponentiationRefinesModexp : Prop :=
  ∀ (c : Config) (a d N : Nat), 1 < N → N % 2 = 1 → montModexp c a d N = modexpCounted a d N

/-! ### Host programs -/

/-- LDX on an idle block leaves x[i] = v and everything else but the response log unchanged, whatever x[i] held
(30_encoding.md R107, 70_reset_and_hazards.md R262). -/
def Obligations.LoadWritesTheWholeRegister : Prop :=
  ∀ (s : State) (i : Reg) (v : Nat), s.Inv → s.busy = false → v < s.cfg.radix → s.inputs = hostLDX s.cfg i v →
    Host.Core.run Sys2Proof.core s.cfg.limbs s = .next
      { s with
        x := writeReg s.x i v, inputs := []
        responses := List.replicate s.cfg.limbs .ok ++ s.responses }

/-- STX on an idle block reads x[i] back from its L limbs and changes nothing but the response log (30_encoding.md R107). -/
def Obligations.StoreReadsTheWholeRegister : Prop :=
  ∀ (s : State) (i : Reg), s.Inv → s.busy = false → s.inputs = hostSTX s.cfg i →
    ∃ t, Host.Core.run Sys2Proof.core s.cfg.limbs s = .next t ∧
      { t with responses := s.responses } = { s with inputs := [] } ∧
      assembleLimbs s.cfg.limbs t.responses = some (readReg s.x i)
end

