-- ==== Sys2Proof/Laws/Arith.lean ====
section
/-! SUPPORT. What each arithmetic loop of Machine/Arith.lean computes: no step budget runs out, and the loop's value is
the mathematical one of 00_scope.md R9. -/

namespace Sys2Proof.Machine

/-! ### Bit length and population count -/

@[simp] theorem bitlen_zero : bitlen 0 = 0 := rfl

theorem lt_two_pow_bitlen (v : Nat) : v < 2 ^ bitlen v := by
  unfold bitlen
  split
  · simp_all
  · exact Nat.lt_log2_self

theorem bitlen_half {v : Nat} (h : v ≠ 0) : bitlen v = bitlen (v / 2) + 1 := by
  by_cases h2 : v / 2 = 0
  · have : v = 1 := by omega
    subst this; rfl
  · have : 2 ≤ v := by omega
    simp only [bitlen, h, h2, if_false]
    rw [Nat.log2_def, if_pos this]

theorem bitlen_le_of_lt_two_pow : ∀ {n v : Nat}, v < 2 ^ n → bitlen v ≤ n
  | 0, v, h => by
    have : v = 0 := by simpa using h
    simp [this]
  | n + 1, v, h => by
    by_cases hv : v = 0
    · simp [hv]
    · rw [bitlen_half hv]
      have : v / 2 < 2 ^ n := by rw [pow_succ] at h; omega
      have := bitlen_le_of_lt_two_pow this
      omega

theorem bitlen_eq_digits_length : ∀ v : Nat, bitlen v = (Nat.digits 2 v).length := by
  intro v
  induction v using Nat.strongRecOn with
  | _ v ih =>
    by_cases hv : v = 0
    · simp [hv]
    · rw [bitlen_half hv, Nat.digits_def' (by decide) (by omega), List.length_cons, ih _ (by omega)]

theorem popcount_zero : popcount 0 = 0 := rfl

theorem popcount_half {v : Nat} (h : v ≠ 0) : popcount v = v % 2 + popcount (v / 2) := by
  unfold popcount
  rw [bitlen_half h]
  rfl

theorem popcount_eq_digits_sum : ∀ v : Nat, popcount v = (Nat.digits 2 v).sum := by
  intro v
  induction v using Nat.strongRecOn with
  | _ v ih =>
    by_cases hv : v = 0
    · simp [hv, popcount_zero]
    · rw [popcount_half hv, Nat.digits_def' (by decide) (by omega), List.sum_cons, ih _ (by omega)]

theorem popcount_le_bitlen : ∀ v : Nat, popcount v ≤ bitlen v := by
  intro v
  induction v using Nat.strongRecOn with
  | _ v ih =>
    by_cases hv : v = 0
    · simp [hv, popcount_zero]
    · rw [popcount_half hv, bitlen_half hv]
      have := ih (v / 2) (by omega)
      omega

/-! ### Euclid's algorithm -/

theorem gcdLoop_eq_gcd : ∀ (n u v : Nat), v < n → gcdLoop n u v = Nat.gcd u v
  | n + 1, u, v, h => by
    unfold gcdLoop
    split
    · simp_all
    · rename_i hv
      have hm : u % v < v := Nat.mod_lt _ (by omega)
      rw [gcdLoop_eq_gcd n v (u % v) (by omega), Nat.gcd_comm v, ← Nat.gcd_rec, Nat.gcd_comm]

/-- The loop of 42_gcd_modinv.md R170 computes `gcd(a, b)`. -/
@[simp] theorem euclid_eq_gcd (a b : Nat) : euclid a b = Nat.gcd a b :=
  gcdLoop_eq_gcd _ _ _ (Nat.lt_succ_self b)

theorem egcdLoop_spec (a N : Int) : ∀ (n r0 r1 : Nat) (t0 t1 : Int), r1 < n →
    (r0 : Int) ≡ t0 * a [ZMOD N] → (r1 : Int) ≡ t1 * a [ZMOD N] →
    (egcdLoop n r0 r1 t0 t1).1 = Nat.gcd r0 r1 ∧
      ((Nat.gcd r0 r1 : Nat) : Int) ≡ (egcdLoop n r0 r1 t0 t1).2 * a [ZMOD N]
  | n + 1, r0, r1, t0, t1, h, h0, h1 => by
    unfold egcdLoop
    split
    · rename_i hr
      subst hr
      simpa using h0
    · rename_i hr
      have hm : r0 % r1 < r1 := Nat.mod_lt _ (by omega)
      have hnext : ((r0 % r1 : Nat) : Int) ≡ (t0 - (r0 / r1 : Nat) * t1) * a [ZMOD N] := by
        have e : ((r0 % r1 : Nat) : Int) = r0 - (r0 / r1 : Nat) * r1 := by
          have := Nat.div_add_mod r0 r1
          have h' : ((r1 * (r0 / r1) + r0 % r1 : Nat) : Int) = r0 := by rw [this]
          push_cast at h' ⊢
          linarith
        rw [e, sub_mul, mul_assoc]
        exact h0.sub (h1.mul_left _)
      have ih := egcdLoop_spec a N n r1 (r0 % r1) t1 _ (by omega) h1 hnext
      have hg : Nat.gcd r1 (r0 % r1) = Nat.gcd r0 r1 := by
        rw [Nat.gcd_comm r1, ← Nat.gcd_rec, Nat.gcd_comm]
      rw [hg] at ih
      exact ih

/-- `invMod a n` is the `inv_mod(a, n)` of 00_scope.md R9. -/
theorem invMod_spec {a n : Nat} (hn : 1 < n) (h : Nat.gcd a n = 1) :
    a * invMod a n % n = 1 ∧ 1 ≤ invMod a n ∧ invMod a n < n := by
  have hmod : a % n < n := Nat.mod_lt _ (by omega)
  have hg : Nat.gcd n (a % n) = 1 := by rw [Nat.gcd_comm, ← Nat.gcd_rec, Nat.gcd_comm, h]
  have hs := egcdLoop_spec a n (n + 1) n (a % n) 0 1 (by omega)
    (by simp [Int.ModEq]) (by simp [Int.ModEq])
  rw [hg] at hs
  generalize hT : (egcdLoop (n + 1) n (a % n) 0 1).2 = T at hs
  have hpos : (0 : Int) < n := by omega
  have hnn : 0 ≤ T % n := Int.emod_nonneg _ (by omega)
  have hlt : T % n < n := Int.emod_lt_of_pos _ hpos
  have hcast : ((invMod a n : Nat) : Int) = T % n := by
    simp [invMod, hT, Int.toNat_of_nonneg hnn]
  have hone : a * invMod a n % n = 1 := by
    have hc : ((a * invMod a n % n : Nat) : Int) = 1 := by
      push_cast
      rw [hcast]
      have h1 : (T * a) % n = 1 % n := hs.2.symm
      rw [Int.mul_emod, Int.emod_emod_of_dvd _ (dvd_refl _), ← Int.mul_emod, mul_comm, h1]
      exact Int.emod_eq_of_lt (by decide) (by omega)
    exact_mod_cast hc
  refine ⟨hone, ?_, by omega⟩
  rcases Nat.eq_zero_or_pos (invMod a n) with hz | hz
  · rw [hz] at hone; simp at hone
  · exact hz

/-! ### Square and multiply -/

theorem modexpLoop_spec (N : Nat) : ∀ (k e result acc cnt : Nat), e < 2 ^ k →
    (modexpLoop N k e result acc cnt).1 = (if e = 0 then result else result * acc ^ e % N) ∧
    (modexpLoop N k e result acc cnt).2 = cnt + bitlen e + popcount e
  | 0, e, result, acc, cnt, h => by
    have : e = 0 := by simpa using h
    simp [modexpLoop, this, popcount_zero]
  | k + 1, e, result, acc, cnt, h => by
    unfold modexpLoop
    have hk : e / 2 < 2 ^ k := by rw [pow_succ] at h; omega
    by_cases he : e = 0
    · simp [he, popcount_zero]
    · rw [if_neg he]
      have hde := Nat.div_add_mod e 2
      split
      · rename_i ho
        obtain ⟨h1, h2⟩ := modexpLoop_spec N k (e / 2) (result * acc % N) (acc * acc % N) (cnt + 1 + 1) hk
        refine ⟨?_, by rw [h2, bitlen_half he, popcount_half he, ho]; omega⟩
        rw [h1]
        split
        · have : e = 1 := by omega
          simp [this]
        · have hp : acc ^ e = acc * (acc * acc) ^ (e / 2) := by
            rw [← pow_two, ← pow_mul, ← pow_succ']
            congr 1; omega
          rw [hp, Nat.mul_mod, Nat.pow_mod, Nat.mod_mod, Nat.mod_mod, ← Nat.pow_mod, ← Nat.mul_mod, mul_assoc]
      · rename_i ho
        have ho : e % 2 = 0 := by omega
        obtain ⟨h1, h2⟩ := modexpLoop_spec N k (e / 2) result (acc * acc % N) (cnt + 1) hk
        refine ⟨?_, by rw [h2, bitlen_half he, popcount_half he, ho]; omega⟩
        rw [h1, if_neg (by omega)]
        have hp : acc ^ e = (acc * acc) ^ (e / 2) := by
          rw [← pow_two, ← pow_mul]
          congr 1; omega
        rw [hp, Nat.mul_mod, Nat.pow_mod, Nat.mod_mod, ← Nat.pow_mod, ← Nat.mul_mod]

/-- The result law of 41_modexp.md R150: `a^d mod N` for every N > 1. -/
theorem modexpCounted_fst {N : Nat} (hN : 1 < N) (a d : Nat) : (modexpCounted a d N).1 = a ^ d % N := by
  rw [modexpCounted, (modexpLoop_spec N _ d 1 a 0 (lt_two_pow_bitlen d)).1]
  split
  · rename_i h; subst h; simp [Nat.mod_eq_of_lt hN]
  · simp

/-- The count of 41_modexp.md R151. -/
theorem modexpCounted_snd (a d N : Nat) : (modexpCounted a d N).2 = bitlen d + popcount d := by
  rw [modexpCounted, (modexpLoop_spec N _ d 1 a 0 (lt_two_pow_bitlen d)).2]
  omega

/-! ### The odd part -/

theorem halveLoop_spec : ∀ (k r s : Nat), 0 < r → r < 2 ^ k →
    (halveLoop k r s).1 % 2 = 1 ∧ s ≤ (halveLoop k r s).2 ∧
      2 ^ ((halveLoop k r s).2 - s) * (halveLoop k r s).1 = r
  | 0, r, s, h0, h => by
    have : r = 0 := by simpa using h
    omega
  | k + 1, r, s, h0, h => by
    unfold halveLoop
    split
    · rename_i he
      have hk : r / 2 < 2 ^ k := by rw [pow_succ] at h; omega
      obtain ⟨h1, h2, h3⟩ := halveLoop_spec k (r / 2) (s + 1) (by omega) hk
      refine ⟨h1, by omega, ?_⟩
      have hs : (halveLoop k (r / 2) (s + 1)).2 - s = (halveLoop k (r / 2) (s + 1)).2 - (s + 1) + 1 := by omega
      rw [hs, pow_succ, mul_right_comm, h3]
      omega
    · rename_i he
      refine ⟨by omega, le_refl _, by simp⟩

/-- `n − 1 = 2^s · r` with r odd (43_primality.md R190). -/
theorem oddPart_spec {n : Nat} (hn : 1 < n) :
    (oddPart n).1 % 2 = 1 ∧ 2 ^ (oddPart n).2 * (oddPart n).1 = n - 1 := by
  have h := halveLoop_spec (bitlen (n - 1)) (n - 1) 0 (by omega) (lt_two_pow_bitlen _)
  exact ⟨h.1, by simpa [oddPart] using h.2.2⟩

/-- The decomposition is unique. -/
theorem oddPart_unique {r s r' s' : Nat} (hr : r % 2 = 1) (hr' : r' % 2 = 1) (h : 2 ^ s * r = 2 ^ s' * r') :
    s = s' ∧ r = r' := by
  have key : ∀ {s r s' r' : Nat}, r % 2 = 1 → 2 ^ s * r = 2 ^ s' * r' → s' ≤ s := by
    intro s r s' r' hr h
    by_contra hlt
    obtain ⟨d, hd⟩ : ∃ d, s' = s + (d + 1) := ⟨s' - s - 1, by omega⟩
    subst hd
    rw [pow_add, mul_assoc] at h
    have := Nat.eq_of_mul_eq_mul_left (by positivity) h
    rw [pow_succ] at this
    have h2 : r = 2 * (2 ^ d * r') := by rw [this]; ring
    omega
  have e : s = s' := le_antisymm (key hr' h.symm) (key hr h)
  subst e
  exact ⟨rfl, Nat.eq_of_mul_eq_mul_left (by positivity) h⟩

/-- An odd candidate has at least one factor 2 in n − 1. -/
theorem one_le_oddPart_snd {n : Nat} (hn : 1 < n) (ho : n % 2 = 1) : 1 ≤ (oddPart n).2 := by
  obtain ⟨h1, h2⟩ := oddPart_spec hn
  rcases Nat.eq_zero_or_pos (oddPart n).2 with h | h
  · rw [h] at h2; simp at h2; omega
  · exact h

/-- bitlen(r) + s is the bit length of n − 1 = 2^s · r. -/
theorem bitlen_two_pow_mul : ∀ {r : Nat} (_ : 0 < r) (s : Nat), bitlen (2 ^ s * r) = bitlen r + s
  | r, _, 0 => by simp
  | r, hr, s + 1 => by
    have hpos : 0 < 2 ^ s * r := by positivity
    have h2 : 2 ^ (s + 1) * r = 2 * (2 ^ s * r) := by rw [pow_succ]; ring
    rw [bitlen_half (v := 2 ^ (s + 1) * r) (by omega)]
    have : 2 ^ (s + 1) * r / 2 = 2 ^ s * r := by omega
    rw [this, bitlen_two_pow_mul hr s]
    omega

/-! ### The Miller-Rabin squaring loop -/

/-- The i-th value of the squaring sequence that starts at y. -/
def squared (n y : Nat) : Nat → Nat
  | 0 => y
  | i + 1 => squared n (y * y % n) i

theorem squared_pow {n : Nat} (hn : 1 < n) (a r : Nat) : ∀ i : Nat, ∀ m : Nat,
    squared n (a ^ (2 ^ m * r) % n) i = a ^ (2 ^ (m + i) * r) % n
  | 0, m => by simp [squared]
  | i + 1, m => by
    have : a ^ (2 ^ m * r) % n * (a ^ (2 ^ m * r) % n) % n = a ^ (2 ^ (m + 1) * r) % n := by
      rw [← Nat.mul_mod, ← pow_add]
      congr 2; ring
    rw [squared, this, squared_pow hn a r i (m + 1)]
    congr 4; omega

/-- What the squaring loop computes: it stops after q ≤ k squarings, q being the first index whose value is n − 1 or
(after at least one squaring) 1. -/
theorem squareLoop_spec (n : Nat) : ∀ (k y cnt : Nat), y ≠ 1 → ∃ q, q ≤ k ∧
    (squareLoop n k y cnt).cnt = cnt + q ∧ (squareLoop n k y cnt).y = squared n y q ∧
    (∀ j < q, squared n y j ≠ 1 ∧ squared n y j ≠ n - 1) ∧
    (q = k ∨ squared n y q = 1 ∨ squared n y q = n - 1) ∧
    (squareLoop n k y cnt).composite = decide (squared n y q = 1)
  | 0, y, cnt, h1 => ⟨0, by simp [squareLoop, squared, h1]⟩
  | k + 1, y, cnt, h1 => by
    unfold squareLoop
    by_cases hy : y = n - 1
    · exact ⟨0, by simp [squared, hy ▸ h1, hy]⟩
    · rw [if_neg hy]
      by_cases hs : y * y % n = 1
      · refine ⟨1, by omega, ?_⟩
        simp [hs, squared, hy, h1]
      · obtain ⟨q, hq, hc, hv, hb, he, hcomp⟩ := squareLoop_spec n k (y * y % n) (cnt + 1) hs
        refine ⟨q + 1, by omega, ?_⟩
        simp only [hs, if_false, squared]
        refine ⟨by omega, hv, ?_, by omega, hcomp⟩
        intro j hj
        cases j with
        | zero => exact ⟨h1, hy⟩
        | succ j => exact hb j (by omega)

end Sys2Proof.Machine
end

