-- ==== Sys2Proof/Laws/Assembler.lean ====
section
/-! SUPPORT. What the assembler's parts do: register names, operand lists, mnemonics up to case. -/

namespace Sys2Proof.Machine

@[simp] theorem regOfName_regName (r : Reg) : regOfName (regName r) = some r := by
  revert r; decide

/-- A name that is no register's is refused (30_encoding.md R99). -/
theorem regOfName_of_forall_ne {name : String} (h : ∀ r : Reg, name ≠ regName r) : regOfName name = none := by
  have h' : name ≠ "x0" ∧ name ≠ "x1" ∧ name ≠ "x2" ∧ name ≠ "x3" ∧ name ≠ "x4" ∧ name ≠ "x5" ∧ name ≠ "x6" ∧
    name ≠ "x7" := ⟨h 0, h 1, h 2, h 3, h 4, h 5, h 6, h 7⟩
  simp [regOfName, h']

@[simp] theorem regsOfNames_map_regName : ∀ l : List Reg, regsOfNames (l.map regName) = some l
  | [] => rfl
  | r :: l => by simp [regsOfNames, regsOfNames_map_regName l]

theorem length_of_regsOfNames : ∀ {names : List String} {rs : List Reg},
    regsOfNames names = some rs → rs.length = names.length
  | [], rs, h => by cases h; rfl
  | n :: rest, rs, h => by
    unfold regsOfNames at h
    split at h
    · rename_i h2; cases h; simp [length_of_regsOfNames h2]
    · cases h

theorem regsOfNames_of_mem {name : String} (h : ∀ r : Reg, name ≠ regName r) :
    ∀ {names : List String}, name ∈ names → regsOfNames names = none
  | n :: rest, hm => by
    unfold regsOfNames
    rcases List.mem_cons.1 hm with rfl | hm
    · rw [regOfName_of_forall_ne h]
    · rw [regsOfNames_of_mem h hm]; cases regOfName n <;> rfl

/-- Mnemonics equal up to case assemble alike (30_encoding.md R99). -/
theorem assembleRegs_congr {m m' : String} (h : m.toList.map Char.toUpper = m'.toList.map Char.toUpper)
    (rs : List Reg) : assembleRegs m rs = assembleRegs m' rs := by
  unfold assembleRegs sameMnemonic; rw [h]

theorem assemble_map_regName (m : String) (rs : List Reg) : assemble m (rs.map regName) = assembleRegs m rs := by
  rw [assemble, regsOfNames_map_regName]

/-- A line whose operand count no form of its mnemonic has is refused (30_encoding.md R99). -/
theorem assemble_of_length {m : String} {n : Nat} (hm : ∀ rs : List Reg, rs.length ≠ n → assembleRegs m rs = none)
    {ops : List String} (h : ops.length ≠ n) : assemble m ops = none := by
  unfold assemble
  split
  · rename_i rs hr; exact hm rs (by rw [length_of_regsOfNames hr]; exact h)
  · rfl

end Sys2Proof.Machine
end

