-- ==== Sys2Proof/Laws/Regs.lean ====
section
/-! SUPPORT. The register file and its limbs: read after write, bounds, and the window's address arithmetic. -/

namespace Sys2Proof.Machine

@[simp] theorem readReg_writeReg_same (r : Regs) (k : Reg) (v : Nat) : readReg (writeReg r k v) k = v := by
  simp [readReg, writeReg]

theorem readReg_writeReg_of_ne (r : Regs) {k l : Reg} (v : Nat) (h : l ≠ k) :
    readReg (writeReg r k v) l = readReg r l := by
  have : k.val ≠ l.val := fun e => h (Fin.ext e.symm)
  simp [readReg, writeReg, Vector.getElem_set_ne, this]

theorem readReg_writeReg (r : Regs) (k l : Reg) (v : Nat) :
    readReg (writeReg r k v) l = if l = k then v else readReg r l := by
  split
  · rename_i h; subst h; simp
  · rename_i h; exact readReg_writeReg_of_ne r v h

/-- Two register files that read alike are equal. -/
theorem regs_ext {r q : Regs} (h : ∀ k, readReg r k = readReg q k) : r = q := by
  apply Vector.ext
  intro i hi
  exact h ⟨i, hi⟩

@[simp] theorem writeReg_writeReg (r : Regs) (k : Reg) (v w : Nat) :
    writeReg (writeReg r k v) k w = writeReg r k w := by
  apply regs_ext; intro l; simp only [readReg_writeReg]; split <;> rfl

@[simp] theorem writeReg_readReg (r : Regs) (k : Reg) : writeReg r k (readReg r k) = r := by
  apply regs_ext; intro l; simp only [readReg_writeReg]; split
  · rename_i h; rw [h]
  · rfl

theorem readReg_zero (k : Reg) : readReg #v[0, 0, 0, 0, 0, 0, 0, 0] k = 0 := by
  revert k; decide

/-! ### Limbs -/

theorem limb_lt (v j : Nat) : limb v j < 2 ^ 32 := Nat.mod_lt _ (by positivity)

/-- A value is what lies below a limb, the limb, and what lies above it. -/
theorem limb_split (v j : Nat) :
    v = v % 2 ^ (32 * j) + (limb v j + v / 2 ^ (32 * (j + 1)) * 2 ^ 32) * 2 ^ (32 * j) := by
  have h1 := Nat.mod_add_div v (2 ^ (32 * j))
  have h2 := Nat.mod_add_div (v / 2 ^ (32 * j)) (2 ^ 32)
  have h3 : v / 2 ^ (32 * (j + 1)) = v / 2 ^ (32 * j) / 2 ^ 32 := by
    rw [Nat.div_div_eq_div_mul, ← pow_add]
    congr 2
  have h4 : limb v j + v / 2 ^ (32 * j) / 2 ^ 32 * 2 ^ 32 = v / 2 ^ (32 * j) := by
    rw [limb, mul_comm _ (2 ^ 32)]; exact h2
  rw [h3, h4, mul_comm (v / 2 ^ (32 * j))]
  exact h1.symm

theorem setLimb_eq (v j : Nat) (w : Word) :
    setLimb v j w = v % 2 ^ (32 * j) + (w.toNat + v / 2 ^ (32 * (j + 1)) * 2 ^ 32) * 2 ^ (32 * j) := by
  have h := limb_split v j
  have : v - limb v j * 2 ^ (32 * j) = v % 2 ^ (32 * j) + v / 2 ^ (32 * (j + 1)) * 2 ^ 32 * 2 ^ (32 * j) := by
    conv_lhs => rw [h]
    rw [add_mul]
    have : limb v j = limb (v % 2 ^ (32 * j) + (limb v j * 2 ^ (32 * j) +
      v / 2 ^ (32 * (j + 1)) * 2 ^ 32 * 2 ^ (32 * j))) j := by rw [← add_mul, ← h]
    rw [← this]
    omega
  rw [setLimb, this, add_mul]
  ring

theorem limb_below (lo x y j : Nat) (h : lo < 2 ^ (32 * j)) (hx : x < 2 ^ 32) :
    limb (lo + (x + y * 2 ^ 32) * 2 ^ (32 * j)) j = x := by
  rw [limb, Nat.add_mul_div_right _ _ (by positivity), Nat.div_eq_of_lt h]
  rw [zero_add, Nat.add_mul_mod_self_right, Nat.mod_eq_of_lt hx]

/-- A limb reads back what was written to it. -/
@[simp] theorem limb_setLimb_same (v j : Nat) (w : Word) : limb (setLimb v j w) j = w.toNat := by
  rw [setLimb_eq]
  exact limb_below _ _ _ _ (Nat.mod_lt _ (by positivity)) w.isLt

/-- Writing one limb leaves what lies above it. -/
theorem setLimb_div (v j : Nat) (w : Word) : setLimb v j w / 2 ^ (32 * (j + 1)) = v / 2 ^ (32 * (j + 1)) := by
  have hlo : v % 2 ^ (32 * j) < 2 ^ (32 * j) := Nat.mod_lt _ (by positivity)
  rw [setLimb_eq, show 32 * (j + 1) = 32 * j + 32 from by ring, pow_add, ← Nat.div_div_eq_div_mul,
    Nat.add_mul_div_right _ _ (by positivity), Nat.div_eq_of_lt hlo, zero_add,
    Nat.add_mul_div_right _ _ (by positivity), Nat.div_eq_of_lt w.isLt, zero_add]

/-- Writing one limb leaves what lies below it. -/
theorem setLimb_mod (v j : Nat) (w : Word) : setLimb v j w % 2 ^ (32 * j) = v % 2 ^ (32 * j) := by
  rw [setLimb_eq, Nat.add_mul_mod_self_right, Nat.mod_mod]

/-- Writing one limb leaves every other. -/
theorem limb_setLimb_of_ne {j l : Nat} (v : Nat) (w : Word) (h : l ≠ j) :
    limb (setLimb v j w) l = limb v l := by
  rcases Nat.lt_or_gt_of_ne h with hl | hl
  · have hm := setLimb_mod v j w
    have key : ∀ u : Nat, limb u l = limb (u % 2 ^ (32 * j)) l := by
      intro u
      have hle : 32 * j = 32 * l + (32 + (32 * j - 32 * l - 32)) := by omega
      rw [limb, limb, hle, pow_add, Nat.mod_mul_right_div_self, pow_add,
        Nat.mod_mod_of_dvd _ (Dvd.intro _ rfl)]
    rw [key, hm, ← key]
  · have hd := setLimb_div v j w
    have key : ∀ u : Nat, limb u l = limb (u / 2 ^ (32 * (j + 1))) (l - (j + 1)) := by
      intro u
      rw [limb, limb, Nat.div_div_eq_div_mul, ← pow_add]
      congr 3
      omega
    rw [key, hd, ← key]

/-- Writing a limb below `n` keeps the value below 2^(32·n) (10_state.md R21). -/
theorem setLimb_lt {v j n : Nat} (w : Word) (hj : j < n) (hv : v < 2 ^ (32 * n)) :
    setLimb v j w < 2 ^ (32 * n) := by
  have hn : 32 * n = 32 * (j + 1) + (32 * n - 32 * (j + 1)) := by omega
  rw [hn, pow_add] at hv ⊢
  have h1 : v / 2 ^ (32 * (j + 1)) < 2 ^ (32 * n - 32 * (j + 1)) := Nat.div_lt_of_lt_mul hv
  rw [← setLimb_div v j w] at h1
  exact (Nat.div_lt_iff_lt_mul (by positivity)).1 h1 |>.trans_eq (mul_comm _ _)

/-! ### Window addresses -/

theorem limbOffset_bounds (i : Reg) {j : Nat} (h : j ≤ 127) :
    0x1000 ≤ limbOffset i j ∧ limbOffset i j ≤ 0x1FFC ∧ limbOffset i j % 4 = 0 := by
  have := i.isLt
  unfold limbOffset
  omega

@[simp] theorem windowReg_limbOffset (i : Reg) {j : Nat} (h : j ≤ 127) : windowReg (limbOffset i j) = i := by
  have := i.isLt
  apply Fin.ext
  simp only [windowReg, limbOffset]
  omega

@[simp] theorem windowLimb_limbOffset (i : Reg) {j : Nat} (h : j ≤ 127) : windowLimb (limbOffset i j) = j := by
  have := i.isLt
  simp only [windowLimb, limbOffset]
  omega

/-- Every aligned window offset is the offset of one limb. -/
theorem limbOffset_window {addr : Nat} (h1 : 0x1000 ≤ addr) (h2 : addr ≤ 0x1FFC) (h4 : addr % 4 = 0) :
    windowLimb addr ≤ 127 ∧ limbOffset (windowReg addr) (windowLimb addr) = addr := by
  simp only [limbOffset, windowReg, windowLimb]
  omega

end Sys2Proof.Machine
end

