-- ==== Sys2Proof/Laws/State.lean ====
section
/-! SUPPORT. One lemma per field per named update of State, each true by rfl: no later proof unfolds a record update. -/

namespace Sys2Proof.Machine

/-! ### issue -/

@[simp] theorem issue_cfg (v : Word) (s : State) : (issue v s).cfg = s.cfg := rfl
@[simp] theorem issue_x (v : Word) (s : State) : (issue v s).x = s.x := rfl
@[simp] theorem issue_irqEn (v : Word) (s : State) : (issue v s).irqEn = s.irqEn := rfl
@[simp] theorem issue_busy (v : Word) (s : State) : (issue v s).busy = true := rfl
@[simp] theorem issue_done (v : Word) (s : State) : (issue v s).done = false := rfl
@[simp] theorem issue_err (v : Word) (s : State) : (issue v s).err = false := rfl
@[simp] theorem issue_errcode (v : Word) (s : State) : (issue v s).errcode = .noError := rfl
@[simp] theorem issue_lastcmd (v : Word) (s : State) : (issue v s).lastcmd = v := rfl
@[simp] theorem issue_flags (v : Word) (s : State) : (issue v s).flags = s.flags := rfl
@[simp] theorem issue_mrs (v : Word) (s : State) : (issue v s).mrs = s.mrs := rfl
@[simp] theorem issue_opcnt (v : Word) (s : State) : (issue v s).opcnt = s.opcnt := rfl
@[simp] theorem issue_inflight (v : Word) (s : State) : (issue v s).inflight = some ⟨v, s.x⟩ := rfl
@[simp] theorem issue_inputs (v : Word) (s : State) : (issue v s).inputs = s.inputs := rfl
@[simp] theorem issue_responses (v : Word) (s : State) : (issue v s).responses = s.responses := rfl

/-! ### finish -/

@[simp] theorem finish_cfg (s : State) : (finish s).cfg = s.cfg := rfl
@[simp] theorem finish_x (s : State) : (finish s).x = s.x := rfl
@[simp] theorem finish_irqEn (s : State) : (finish s).irqEn = s.irqEn := rfl
@[simp] theorem finish_busy (s : State) : (finish s).busy = false := rfl
@[simp] theorem finish_done (s : State) : (finish s).done = true := rfl
@[simp] theorem finish_err (s : State) : (finish s).err = s.err := rfl
@[simp] theorem finish_errcode (s : State) : (finish s).errcode = s.errcode := rfl
@[simp] theorem finish_lastcmd (s : State) : (finish s).lastcmd = s.lastcmd := rfl
@[simp] theorem finish_flags (s : State) : (finish s).flags = s.flags := rfl
@[simp] theorem finish_mrs (s : State) : (finish s).mrs = s.mrs := rfl
@[simp] theorem finish_opcnt (s : State) : (finish s).opcnt = s.opcnt := rfl
@[simp] theorem finish_inflight (s : State) : (finish s).inflight = none := rfl
@[simp] theorem finish_inputs (s : State) : (finish s).inputs = s.inputs := rfl
@[simp] theorem finish_responses (s : State) : (finish s).responses = s.responses := rfl

/-! ### raiseError -/

@[simp] theorem raiseError_cfg (c : ErrCode) (s : State) : (raiseError c s).cfg = s.cfg := rfl
@[simp] theorem raiseError_x (c : ErrCode) (s : State) : (raiseError c s).x = s.x := rfl
@[simp] theorem raiseError_irqEn (c : ErrCode) (s : State) : (raiseError c s).irqEn = s.irqEn := rfl
@[simp] theorem raiseError_busy (c : ErrCode) (s : State) : (raiseError c s).busy = false := rfl
@[simp] theorem raiseError_done (c : ErrCode) (s : State) : (raiseError c s).done = true := rfl
@[simp] theorem raiseError_err (c : ErrCode) (s : State) : (raiseError c s).err = true := rfl
@[simp] theorem raiseError_errcode (c : ErrCode) (s : State) : (raiseError c s).errcode = c := rfl
@[simp] theorem raiseError_lastcmd (c : ErrCode) (s : State) : (raiseError c s).lastcmd = s.lastcmd := rfl
@[simp] theorem raiseError_flags (c : ErrCode) (s : State) : (raiseError c s).flags = s.flags := rfl
@[simp] theorem raiseError_mrs (c : ErrCode) (s : State) : (raiseError c s).mrs = s.mrs := rfl
@[simp] theorem raiseError_opcnt (c : ErrCode) (s : State) : (raiseError c s).opcnt = s.opcnt := rfl
@[simp] theorem raiseError_inflight (c : ErrCode) (s : State) : (raiseError c s).inflight = none := rfl
@[simp] theorem raiseError_inputs (c : ErrCode) (s : State) : (raiseError c s).inputs = s.inputs := rfl
@[simp] theorem raiseError_responses (c : ErrCode) (s : State) : (raiseError c s).responses = s.responses := rfl

/-! ### completeOk -/

@[simp] theorem completeOk_cfg (d : Option (Reg × Nat)) (f : Word) (m : Option Word) (o : Word) (s : State) : (completeOk d f m o s).cfg = s.cfg := rfl
@[simp] theorem completeOk_x (d : Option (Reg × Nat)) (f : Word) (m : Option Word) (o : Word) (s : State) : (completeOk d f m o s).x = (match d with | some (k, v) => writeReg s.x k v | none => s.x) := rfl
@[simp] theorem completeOk_irqEn (d : Option (Reg × Nat)) (f : Word) (m : Option Word) (o : Word) (s : State) : (completeOk d f m o s).irqEn = s.irqEn := rfl
@[simp] theorem completeOk_busy (d : Option (Reg × Nat)) (f : Word) (m : Option Word) (o : Word) (s : State) : (completeOk d f m o s).busy = false := rfl
@[simp] theorem completeOk_done (d : Option (Reg × Nat)) (f : Word) (m : Option Word) (o : Word) (s : State) : (completeOk d f m o s).done = true := rfl
@[simp] theorem completeOk_err (d : Option (Reg × Nat)) (f : Word) (m : Option Word) (o : Word) (s : State) : (completeOk d f m o s).err = s.err := rfl
@[simp] theorem completeOk_errcode (d : Option (Reg × Nat)) (f : Word) (m : Option Word) (o : Word) (s : State) : (completeOk d f m o s).errcode = s.errcode := rfl
@[simp] theorem completeOk_lastcmd (d : Option (Reg × Nat)) (f : Word) (m : Option Word) (o : Word) (s : State) : (completeOk d f m o s).lastcmd = s.lastcmd := rfl
@[simp] theorem completeOk_flags (d : Option (Reg × Nat)) (f : Word) (m : Option Word) (o : Word) (s : State) : (completeOk d f m o s).flags = f := rfl
@[simp] theorem completeOk_mrs (d : Option (Reg × Nat)) (f : Word) (m : Option Word) (o : Word) (s : State) : (completeOk d f m o s).mrs = m.getD s.mrs := rfl
@[simp] theorem completeOk_opcnt (d : Option (Reg × Nat)) (f : Word) (m : Option Word) (o : Word) (s : State) : (completeOk d f m o s).opcnt = o := rfl
@[simp] theorem completeOk_inflight (d : Option (Reg × Nat)) (f : Word) (m : Option Word) (o : Word) (s : State) : (completeOk d f m o s).inflight = none := rfl
@[simp] theorem completeOk_inputs (d : Option (Reg × Nat)) (f : Word) (m : Option Word) (o : Word) (s : State) : (completeOk d f m o s).inputs = s.inputs := rfl
@[simp] theorem completeOk_responses (d : Option (Reg × Nat)) (f : Word) (m : Option Word) (o : Word) (s : State) : (completeOk d f m o s).responses = s.responses := rfl

/-! ### resetBlock -/

@[simp] theorem resetBlock_cfg (s : State) : (resetBlock s).cfg = s.cfg := rfl
@[simp] theorem resetBlock_x (s : State) : (resetBlock s).x = #v[0, 0, 0, 0, 0, 0, 0, 0] := rfl
@[simp] theorem resetBlock_irqEn (s : State) : (resetBlock s).irqEn = false := rfl
@[simp] theorem resetBlock_busy (s : State) : (resetBlock s).busy = false := rfl
@[simp] theorem resetBlock_done (s : State) : (resetBlock s).done = false := rfl
@[simp] theorem resetBlock_err (s : State) : (resetBlock s).err = false := rfl
@[simp] theorem resetBlock_errcode (s : State) : (resetBlock s).errcode = .noError := rfl
@[simp] theorem resetBlock_lastcmd (s : State) : (resetBlock s).lastcmd = 0#32 := rfl
@[simp] theorem resetBlock_flags (s : State) : (resetBlock s).flags = 0#32 := rfl
@[simp] theorem resetBlock_mrs (s : State) : (resetBlock s).mrs = 0#32 := rfl
@[simp] theorem resetBlock_opcnt (s : State) : (resetBlock s).opcnt = 0#32 := rfl
@[simp] theorem resetBlock_inflight (s : State) : (resetBlock s).inflight = none := rfl
@[simp] theorem resetBlock_inputs (s : State) : (resetBlock s).inputs = s.inputs := rfl
@[simp] theorem resetBlock_responses (s : State) : (resetBlock s).responses = s.responses := rfl

/-! ### respond -/

@[simp] theorem respond_cfg (r : Response) (s : State) : (respond r s).cfg = s.cfg := rfl
@[simp] theorem respond_x (r : Response) (s : State) : (respond r s).x = s.x := rfl
@[simp] theorem respond_irqEn (r : Response) (s : State) : (respond r s).irqEn = s.irqEn := rfl
@[simp] theorem respond_busy (r : Response) (s : State) : (respond r s).busy = s.busy := rfl
@[simp] theorem respond_done (r : Response) (s : State) : (respond r s).done = s.done := rfl
@[simp] theorem respond_err (r : Response) (s : State) : (respond r s).err = s.err := rfl
@[simp] theorem respond_errcode (r : Response) (s : State) : (respond r s).errcode = s.errcode := rfl
@[simp] theorem respond_lastcmd (r : Response) (s : State) : (respond r s).lastcmd = s.lastcmd := rfl
@[simp] theorem respond_flags (r : Response) (s : State) : (respond r s).flags = s.flags := rfl
@[simp] theorem respond_mrs (r : Response) (s : State) : (respond r s).mrs = s.mrs := rfl
@[simp] theorem respond_opcnt (r : Response) (s : State) : (respond r s).opcnt = s.opcnt := rfl
@[simp] theorem respond_inflight (r : Response) (s : State) : (respond r s).inflight = s.inflight := rfl
@[simp] theorem respond_inputs (r : Response) (s : State) : (respond r s).inputs = s.inputs := rfl
@[simp] theorem respond_responses (r : Response) (s : State) : (respond r s).responses = r :: s.responses := rfl

/-! ### Window and register writes -/

@[simp] theorem windowWrite_cfg (i : Reg) (j : Nat) (v : Word) (s : State) : (windowWrite i j v s).cfg = s.cfg := by
  unfold windowWrite; split <;> rfl
@[simp] theorem windowWrite_irqEn (i : Reg) (j : Nat) (v : Word) (s : State) : (windowWrite i j v s).irqEn = s.irqEn := by
  unfold windowWrite; split <;> rfl
@[simp] theorem windowWrite_busy (i : Reg) (j : Nat) (v : Word) (s : State) : (windowWrite i j v s).busy = s.busy := by
  unfold windowWrite; split <;> rfl
@[simp] theorem windowWrite_done (i : Reg) (j : Nat) (v : Word) (s : State) : (windowWrite i j v s).done = s.done := by
  unfold windowWrite; split <;> rfl
@[simp] theorem windowWrite_err (i : Reg) (j : Nat) (v : Word) (s : State) : (windowWrite i j v s).err = s.err := by
  unfold windowWrite; split <;> rfl
@[simp] theorem windowWrite_errcode (i : Reg) (j : Nat) (v : Word) (s : State) : (windowWrite i j v s).errcode = s.errcode := by
  unfold windowWrite; split <;> rfl
@[simp] theorem windowWrite_lastcmd (i : Reg) (j : Nat) (v : Word) (s : State) : (windowWrite i j v s).lastcmd = s.lastcmd := by
  unfold windowWrite; split <;> rfl
@[simp] theorem windowWrite_flags (i : Reg) (j : Nat) (v : Word) (s : State) : (windowWrite i j v s).flags = s.flags := by
  unfold windowWrite; split <;> rfl
@[simp] theorem windowWrite_mrs (i : Reg) (j : Nat) (v : Word) (s : State) : (windowWrite i j v s).mrs = s.mrs := by
  unfold windowWrite; split <;> rfl
@[simp] theorem windowWrite_opcnt (i : Reg) (j : Nat) (v : Word) (s : State) : (windowWrite i j v s).opcnt = s.opcnt := by
  unfold windowWrite; split <;> rfl
@[simp] theorem windowWrite_inflight (i : Reg) (j : Nat) (v : Word) (s : State) : (windowWrite i j v s).inflight = s.inflight := by
  unfold windowWrite; split <;> rfl
@[simp] theorem windowWrite_inputs (i : Reg) (j : Nat) (v : Word) (s : State) : (windowWrite i j v s).inputs = s.inputs := by
  unfold windowWrite; split <;> rfl
@[simp] theorem windowWrite_responses (i : Reg) (j : Nat) (v : Word) (s : State) : (windowWrite i j v s).responses = s.responses := by
  unfold windowWrite; split <;> rfl
@[simp] theorem statusWrite_cfg (v : Word) (s : State) : (statusWrite v s).cfg = s.cfg := by
  unfold statusWrite; split <;> rfl
@[simp] theorem statusWrite_x (v : Word) (s : State) : (statusWrite v s).x = s.x := by
  unfold statusWrite; split <;> rfl
@[simp] theorem statusWrite_irqEn (v : Word) (s : State) : (statusWrite v s).irqEn = s.irqEn := by
  unfold statusWrite; split <;> rfl
@[simp] theorem statusWrite_busy (v : Word) (s : State) : (statusWrite v s).busy = s.busy := by
  unfold statusWrite; split <;> rfl
@[simp] theorem statusWrite_err (v : Word) (s : State) : (statusWrite v s).err = s.err := by
  unfold statusWrite; split <;> rfl
@[simp] theorem statusWrite_errcode (v : Word) (s : State) : (statusWrite v s).errcode = s.errcode := by
  unfold statusWrite; split <;> rfl
@[simp] theorem statusWrite_lastcmd (v : Word) (s : State) : (statusWrite v s).lastcmd = s.lastcmd := by
  unfold statusWrite; split <;> rfl
@[simp] theorem statusWrite_flags (v : Word) (s : State) : (statusWrite v s).flags = s.flags := by
  unfold statusWrite; split <;> rfl
@[simp] theorem statusWrite_mrs (v : Word) (s : State) : (statusWrite v s).mrs = s.mrs := by
  unfold statusWrite; split <;> rfl
@[simp] theorem statusWrite_opcnt (v : Word) (s : State) : (statusWrite v s).opcnt = s.opcnt := by
  unfold statusWrite; split <;> rfl
@[simp] theorem statusWrite_inflight (v : Word) (s : State) : (statusWrite v s).inflight = s.inflight := by
  unfold statusWrite; split <;> rfl
@[simp] theorem statusWrite_inputs (v : Word) (s : State) : (statusWrite v s).inputs = s.inputs := by
  unfold statusWrite; split <;> rfl
@[simp] theorem statusWrite_responses (v : Word) (s : State) : (statusWrite v s).responses = s.responses := by
  unfold statusWrite; split <;> rfl
@[simp] theorem ctrlWrite_cfg (v : Word) (s : State) : (ctrlWrite v s).cfg = s.cfg := by
  unfold ctrlWrite; split <;> rfl
@[simp] theorem ctrlWrite_inputs (v : Word) (s : State) : (ctrlWrite v s).inputs = s.inputs := by
  unfold ctrlWrite; split <;> rfl
@[simp] theorem ctrlWrite_responses (v : Word) (s : State) : (ctrlWrite v s).responses = s.responses := by
  unfold ctrlWrite; split <;> rfl
@[simp] theorem statusWrite_done (v : Word) (s : State) : (statusWrite v s).done = (s.done && !v[1]) := by
  unfold statusWrite; cases h : v[1] <;> simp
@[simp] theorem resetOf_cfg (c : Config) : (State.resetOf c).cfg = c := rfl
@[simp] theorem reset_cfg : State.reset.cfg = Config.reference := rfl

end Sys2Proof.Machine
end

