-- ==== Sys2Proof/Laws/Bus.lean ====
section
/-! SUPPORT. What one host transaction can do, said once, and the accepted accesses by address. -/

namespace Sys2Proof.Machine

/-- Everything a write transaction can do (20_memory.md R62 to R68). -/
inductive WriteEffect (s : State) (addr width : Nat) (v : Word) : Response × State → Prop where
  /-- Refused, with no effect. -/
  | refused : WriteEffect s addr width v (.busError, s)
  /-- Not the RMAU's. -/
  | outside : width = 4 → 0x2000 ≤ addr → WriteEffect s addr width v (.notAddressed, s)
  /-- A window write while idle. -/
  | window (i : Reg) (j : Nat) : width = 4 → s.busy = false → j ≤ 127 → addr = limbOffset i j →
      WriteEffect s addr width v (.ok, windowWrite i j v s)
  | ctrl : width = 4 → addr = 0x008 → WriteEffect s addr width v (.ok, ctrlWrite v s)
  | status : width = 4 → addr = 0x00C → WriteEffect s addr width v (.ok, statusWrite v s)
  | cmd : width = 4 → addr = 0x010 → s.busy = false → WriteEffect s addr width v (.ok, issue v s)
  /-- A read-only register. -/
  | ignored : width = 4 → WriteEffect s addr width v (.ok, s)

theorem blockSelects_iff (c : Config) (addr : Nat) :
    blockSelects c addr = true ↔ c.base ≤ addr ∧ addr < c.base + 0x2000 := by
  simp [blockSelects]

/-- An access inside the block is the transaction at its offset. -/
theorem platformAccess_read {c : Config} {addr : Nat} (width : Nat) (h : blockSelects c addr = true) :
    platformAccess c (.read addr width) = [.bus (.read (addr - c.base) width)] := by simp [platformAccess, h]

theorem platformAccess_write {c : Config} {addr : Nat} (width : Nat) (v : Word) (h : blockSelects c addr = true) :
    platformAccess c (.write addr width v) = [.bus (.write (addr - c.base) width v)] := by simp [platformAccess, h]

theorem inWindow_iff (addr : Nat) : inWindow addr = true ↔ 0x1000 ≤ addr ∧ addr ≤ 0x1FFC := by
  simp [inWindow]

theorem accessOk_iff (addr n : Nat) : accessOk addr n = true ↔ n = 4 ∧ addr % 4 = 0 ∧ addr < 0x2000 := by
  simp [accessOk, and_assoc]

theorem refusedBusy_iff (s : State) (addr : Nat) (write : Bool) :
    refusedBusy s addr write = true ↔
      s.busy = true ∧ ((0x1000 ≤ addr ∧ addr ≤ 0x1FFC) ∨ (addr = 0x010 ∧ write = true)) := by
  simp [refusedBusy, inWindow_iff]

theorem busWrite_effect (s : State) (addr width : Nat) (v : Word) :
    WriteEffect s addr width v (busWrite s addr width v) := by
  unfold busWrite
  split
  · exact .refused
  · rename_i hform
    have hw : width = 4 := by omega
    have ha : addr % 4 = 0 := by omega
    split
    · rename_i hok
      have : ¬ (accessOk addr width = true) := by simpa using hok
      rw [accessOk_iff] at this
      exact .outside hw (by omega)
    · split
      · exact .refused
      · rename_i hok hbusy
        rw [refusedBusy_iff] at hbusy
        split
        · rename_i hwin
          rw [inWindow_iff] at hwin
          obtain ⟨h1, h2⟩ := limbOffset_window hwin.1 hwin.2 ha
          refine .window _ _ hw ?_ h1 h2.symm
          cases hb : s.busy
          · rfl
          · exact absurd ⟨hb, .inl hwin⟩ hbusy
        · unfold csrWrite
          split
          · rename_i s' he
            split at he
            · cases he; exact .ctrl hw ‹_›
            · split at he
              · cases he; exact .status hw ‹_›
              · split at he
                · cases he
                  refine .cmd hw ‹_› ?_
                  cases hb : s.busy
                  · rfl
                  · exact absurd ⟨hb, .inr ⟨‹_›, rfl⟩⟩ hbusy
                · split at he
                  · cases he; exact .ignored hw
                  · cases he
          · exact .refused

/-- A read changes the response log alone (20_memory.md R67). -/
theorem transact_read (s : State) (addr width : Nat) :
    transact (.read addr width) s = respond (busRead s addr width) s := rfl

theorem transact_write (s : State) (addr width : Nat) (v : Word) :
    transact (.write addr width v) s =
      respond (busWrite s addr width v).1 (busWrite s addr width v).2 := rfl

/-- `busRead` looks at nothing the response log or the coming events hold. -/
theorem busRead_congr {s t : State} (hc : t.cfg = s.cfg) (hx : t.x = s.x) (hi : t.irqEn = s.irqEn)
    (hb : t.busy = s.busy) (hd : t.done = s.done) (he : t.err = s.err) (hec : t.errcode = s.errcode)
    (hl : t.lastcmd = s.lastcmd) (hf : t.flags = s.flags) (hm : t.mrs = s.mrs) (ho : t.opcnt = s.opcnt)
    (addr width : Nat) : busRead t addr width = busRead s addr width := by
  cases s
  cases t
  dsimp only at *
  subst hc hx hi hb hd he hec hl hf hm ho
  rfl

@[simp] theorem busRead_respond (r : Response) (s : State) (addr width : Nat) :
    busRead (respond r s) addr width = busRead s addr width := by
  apply busRead_congr <;> rfl

/-! ### Window accesses while idle -/

theorem busRead_window (s : State) (i : Reg) {j : Nat} (hb : s.busy = false) (hj : j ≤ 127) :
    busRead s (limbOffset i j) 4 = .data (windowRead s i j) := by
  obtain ⟨h1, h2, h4⟩ := limbOffset_bounds i hj
  have hok : accessOk (limbOffset i j) 4 = true := (accessOk_iff _ _).2 ⟨rfl, h4, by omega⟩
  have hnb : refusedBusy s (limbOffset i j) false = false := by simp [refusedBusy, hb]
  have hwin : inWindow (limbOffset i j) = true := (inWindow_iff _).2 ⟨h1, h2⟩
  unfold busRead
  rw [if_neg (by omega), hok, hnb, hwin, windowReg_limbOffset i hj, windowLimb_limbOffset i hj]
  rfl

theorem busWrite_window (s : State) (i : Reg) {j : Nat} (v : Word) (hb : s.busy = false) (hj : j ≤ 127) :
    busWrite s (limbOffset i j) 4 v = (.ok, windowWrite i j v s) := by
  obtain ⟨h1, h2, h4⟩ := limbOffset_bounds i hj
  have hok : accessOk (limbOffset i j) 4 = true := (accessOk_iff _ _).2 ⟨rfl, h4, by omega⟩
  have hnb : refusedBusy s (limbOffset i j) true = false := by simp [refusedBusy, hb]
  have hwin : inWindow (limbOffset i j) = true := (inWindow_iff _).2 ⟨h1, h2⟩
  unfold busWrite
  rw [if_neg (by omega), hok, hnb, hwin, windowReg_limbOffset i hj, windowLimb_limbOffset i hj]
  rfl

/-! ### Accesses to the control and status registers -/

theorem busRead_status (s : State) : busRead s 0x00C 4 = .data (statusWord s) := by
  simp [busRead, accessOk, refusedBusy, inWindow, csrRead]

theorem busWrite_ctrl (s : State) (v : Word) : busWrite s 0x008 4 v = (.ok, ctrlWrite v s) := by
  simp [busWrite, accessOk, refusedBusy, inWindow, csrWrite]

theorem busWrite_status (s : State) (v : Word) : busWrite s 0x00C 4 v = (.ok, statusWrite v s) := by
  simp [busWrite, accessOk, refusedBusy, inWindow, csrWrite]

theorem busWrite_cmd {s : State} (v : Word) (hb : s.busy = false) : busWrite s 0x010 4 v = (.ok, issue v s) := by
  simp [busWrite, accessOk, refusedBusy, inWindow, csrWrite, hb]

theorem busWrite_cmd_busy {s : State} (v : Word) (hb : s.busy = true) : busWrite s 0x010 4 v = (.busError, s) := by
  simp [busWrite, accessOk, refusedBusy, inWindow, hb]

end Sys2Proof.Machine
end

