-- ==== Sys2Proof/Laws/Complete.lean ====
section
/-! SUPPORT. What a completion can do, said once: `exec` is `complete` of the command's result, and every result has the
shape and the bounds of its rule. -/

namespace Sys2Proof.Machine

/-- Every command's meaning is the completion of its result on the sources (30_encoding.md R103). -/
theorem exec_eq_complete (i : Instr) (s : State) :
    exec i s = .next (complete (resultOf s.cfg s.sources i) s) := by
  cases i <;> rfl

/-- Use of `exec_eq_complete` on an answer already known. -/
theorem exec_next {i : Instr} {s t : State} (h : exec i s = .next t) :
    t = complete (resultOf s.cfg s.sources i) s := by
  rw [exec_eq_complete] at h
  cases h
  rfl

/-- A command that succeeds on the registers as they are, issued and run (30_encoding.md R101 to R104). -/
theorem exec_issue_of_ok {i : Instr} {s : State} {dest flags mrs opcnt}
    (h : resultOf s.cfg s.x i = .ok dest flags mrs opcnt) :
    exec i (issue (encode i) s) = .next (completeOk dest flags mrs opcnt (issue (encode i) s)) := by
  rw [exec_eq_complete, show resultOf (issue (encode i) s).cfg (issue (encode i) s).sources i =
    .ok dest flags mrs opcnt from h]
  rfl

/-- A completion either raises an error or writes a success. -/
theorem complete_cases (r : Result) (s : State) :
    (∃ code, r = .err code ∧ complete r s = raiseError code s) ∨
    (∃ d f m o, r = .ok d f m o ∧ complete r s = completeOk d f m o s) := by
  cases r with
  | err code => exact .inl ⟨code, rfl, rfl⟩
  | ok d f m o => exact .inr ⟨d, f, m, o, rfl, rfl⟩

/-- With a command in flight the sources are its snapshot. -/
@[simp] theorem sources_issue (v : Word) (s : State) : (issue v s).sources = s.x := rfl

theorem sources_of_inflight {s : State} {c : Command} (h : s.inflight = some c) : s.sources = c.snap := by
  simp [State.sources, h]

theorem sources_of_idle {s : State} (h : s.inflight = none) : s.sources = s.x := by
  simp [State.sources, h]

theorem Inv_sources {s : State} (h : s.Inv) : s.sources = s.x := by
  cases hi : s.inflight with
  | none => exact sources_of_idle hi
  | some c => rw [sources_of_inflight hi, h.snap c hi]

/-- A modulus check passes its continuation on, or raises MODULUS_SMALL. -/
theorem withModulus_eq_ok {N : Nat} {k : Result} {d f m o} (h : withModulus N k = .ok d f m o) :
    1 < N ∧ k = .ok d f m o := by
  unfold withModulus at h
  split at h
  · cases h
  · exact ⟨by omega, h⟩

theorem withOddModulus_eq_ok {N : Nat} {k : Result} {d f m o} (h : withOddModulus N k = .ok d f m o) :
    1 < N ∧ N % 2 = 1 ∧ k = .ok d f m o := by
  obtain ⟨h1, h2⟩ := withModulus_eq_ok h
  split at h2
  · cases h2
  · exact ⟨h1, by omega, h2⟩

theorem countWord_toNat {n : Nat} (h : n < 2 ^ 32) : (countWord n).toNat = n := by
  simp only [countWord, BitVec.toNat_ofNat]
  exact Nat.mod_eq_of_lt h

/-- What a success holds: the destination RD names, MR_S for the Miller-Rabin commands, one of the FLAGS values. -/
structure OkShape (i : Instr) (d : Option (Reg × Nat)) (f : Word) (m : Option Word) : Prop where
  dest : d.map Prod.fst = destOf i
  mrs : m.isSome = writesMrs i
  flags : f ∈ [0x00#32, 0x01#32, 0x02#32, 0x11#32, 0x20#32]

theorem flagsClear_eq : flagsClear = 0x00#32 := by decide
theorem flagsNoInverse_eq : flagsNoInverse = 0x02#32 := by decide
theorem flagsOfRound_eq (c : Bool) : flagsOfRound c = if c then 0x00#32 else 0x01#32 := by cases c <;> decide
theorem flagsOfClass_notPrime : flagsOfClass .notPrime = 0x00#32 := by decide
theorem flagsOfClass_prime : flagsOfClass .prime = 0x11#32 := by decide
theorem flagsOfClass_test : flagsOfClass .test = 0x20#32 := by decide

/-- The bounds of a success, for sources below 2^W in a legal configuration (10_state.md R22, R35, R36). -/
structure OkBounds (c : Config) (d : Option (Reg × Nat)) (m : Option Word) (o : Word) : Prop where
  value : ∀ k v, d = some (k, v) → v < c.radix
  mrs : ∀ w, m = some w → w.toNat < c.width
  opcnt : o.toNat ≤ 2 * c.width

theorem resultOf_ok_shape {c : Config} {x : Regs} {i : Instr} {d f m o}
    (h : resultOf c x i = .ok d f m o) : OkShape i d f m := by
  cases i with
  | modmul rd ra rb rm =>
    obtain ⟨-, h⟩ := withModulus_eq_ok h
    cases h; exact ⟨rfl, rfl, by decide⟩
  | montmul rd ra rb rm =>
    obtain ⟨-, -, h⟩ := withOddModulus_eq_ok h
    split at h
    · cases h
    · cases h; exact ⟨rfl, rfl, by decide⟩
  | montTo rd ra rm =>
    obtain ⟨-, -, h⟩ := withOddModulus_eq_ok h
    cases h; exact ⟨rfl, rfl, by decide⟩
  | montFrom rd ra rm =>
    obtain ⟨-, -, h⟩ := withOddModulus_eq_ok h
    cases h; exact ⟨rfl, rfl, by decide⟩
  | modexp rd ra rb rm =>
    obtain ⟨-, h⟩ := withModulus_eq_ok h
    cases h; exact ⟨rfl, rfl, by decide⟩
  | gcd rd ra rb => cases h; exact ⟨rfl, rfl, by decide⟩
  | modinv rd ra rm =>
    obtain ⟨-, h⟩ := withModulus_eq_ok h
    split at h <;> cases h <;> exact ⟨rfl, rfl, by decide⟩
  | mrPre rd rm =>
    simp only [resultOf, mrPreResult] at h
    split at h <;> cases h <;> exact ⟨rfl, rfl, by decide⟩
  | mrRound ra rm =>
    simp only [resultOf, mrRoundResult] at h
    split at h
    · cases h
    · split at h
      · cases h
      · cases h
        refine ⟨rfl, rfl, ?_⟩
        rw [flagsOfRound_eq]
        split <;> decide

/-! ### Bounds -/

theorem bitlen_le_width {c : Config} {v : Nat} (h : v < c.radix) : bitlen v ≤ c.width :=
  bitlen_le_of_lt_two_pow h

theorem width_lt {c : Config} (h : c.Legal) : 0 < c.width ∧ 2 * c.width < 2 ^ 32 := by
  obtain ⟨⟨h1, h2⟩, -⟩ := h
  unfold Config.width
  omega

/-- The exponent s of n − 1 = 2^s · r, together with r, fits the width of n. -/
theorem bitlen_oddPart_add {c : Config} {n : Nat} (hn : 1 < n) (h : n < c.radix) :
    0 < (oddPart n).1 ∧ bitlen (oddPart n).1 + (oddPart n).2 ≤ c.width := by
  obtain ⟨h1, h2⟩ := oddPart_spec hn
  have hpos : 0 < (oddPart n).1 := by omega
  refine ⟨hpos, ?_⟩
  rw [← bitlen_two_pow_mul hpos, h2]
  exact bitlen_le_width (by omega)

theorem one_le_bitlen {v : Nat} (h : 0 < v) : 1 ≤ bitlen v := by
  rw [bitlen_half (by omega)]; omega

/-- The count of a round is the count of its exponentiation plus at most s − 1 squarings (43_primality.md R192). -/
theorem mrRoundRun_cnt (a n : Nat) : ∃ q, q ≤ (oddPart n).2 - 1 ∧
    (mrRoundRun a n).cnt = bitlen (oddPart n).1 + popcount (oddPart n).1 + q := by
  unfold mrRoundRun
  simp only [modexpCounted_snd]
  split
  · rename_i hy
    obtain ⟨q, hq, hc, -⟩ := squareLoop_spec n ((oddPart n).2 - 1) (modexpCounted a (oddPart n).1 n).1
      (bitlen (oddPart n).1 + popcount (oddPart n).1) hy.1
    exact ⟨q, hq, hc⟩
  · exact ⟨0, by omega, rfl⟩

theorem resultOf_ok_bounds {c : Config} {x : Regs} {i : Instr} {d f m o} (hc : c.Legal)
    (hx : ∀ k, readReg x k < c.radix) (h : resultOf c x i = .ok d f m o) : OkBounds c d m o := by
  obtain ⟨hw0, hw⟩ := width_lt hc
  have hlt : ∀ (a : Nat) (k : Reg), 1 < readReg x k → a % readReg x k < c.radix := fun a k hk =>
    lt_trans (Nat.mod_lt _ (by omega)) (hx k)
  have hone : (1#32).toNat ≤ 2 * c.width := by simp; omega
  have hzero : (0#32).toNat ≤ 2 * c.width := by simp
  have hpos : 0 < c.radix := by unfold Config.radix; positivity
  cases i with
  | modmul rd ra rb rm =>
    obtain ⟨hN, h⟩ := withModulus_eq_ok h
    cases h
    exact ⟨fun k v e => by cases e; exact hlt _ _ hN, fun w e => (by cases e), hone⟩
  | montmul rd ra rb rm =>
    obtain ⟨hN, -, h⟩ := withOddModulus_eq_ok h
    split at h
    · cases h
    · cases h
      exact ⟨fun k v e => by cases e; exact hlt _ _ hN, fun w e => (by cases e), hone⟩
  | montTo rd ra rm =>
    obtain ⟨hN, -, h⟩ := withOddModulus_eq_ok h
    cases h
    exact ⟨fun k v e => by cases e; exact hlt _ _ hN, fun w e => (by cases e), hone⟩
  | montFrom rd ra rm =>
    obtain ⟨hN, -, h⟩ := withOddModulus_eq_ok h
    cases h
    exact ⟨fun k v e => by cases e; exact hlt _ _ hN, fun w e => (by cases e), hone⟩
  | modexp rd ra rb rm =>
    obtain ⟨hN, h⟩ := withModulus_eq_ok h
    cases h
    have hb := bitlen_le_width (hx rb)
    have hp := popcount_le_bitlen (readReg x rb)
    refine ⟨fun k v e => ?_, fun w e => (by cases e), ?_⟩
    · cases e
      rw [modexpCounted_fst hN]
      exact hlt _ _ hN
    · rw [modexpCounted_snd, countWord_toNat (by omega)]
      omega
  | gcd rd ra rb =>
    cases h
    refine ⟨fun k v e => ?_, fun w e => (by cases e), hzero⟩
    cases e
    rw [euclid_eq_gcd]
    rcases Nat.eq_zero_or_pos (readReg x ra) with h0 | h0
    · rw [h0, Nat.gcd_zero_left]; exact hx rb
    · exact lt_of_le_of_lt (Nat.gcd_le_left _ h0) (hx ra)
  | modinv rd ra rm =>
    obtain ⟨hN, h⟩ := withModulus_eq_ok h
    split at h
    · cases h
      exact ⟨fun k v e => by cases e; exact hpos, fun w e => (by cases e), hzero⟩
    · rename_i hg
      rw [euclid_eq_gcd, not_not] at hg
      cases h
      refine ⟨fun k v e => ?_, fun w e => (by cases e), hzero⟩
      cases e
      exact lt_trans (invMod_spec hN hg).2.2 (hx rm)
  | mrPre rd rm =>
    simp only [resultOf, mrPreResult] at h
    split at h
    · rename_i hcls
      have hn : 1 < readReg x rm := by
        unfold mrClassOf at hcls
        by_contra hlt
        rw [if_pos (by omega)] at hcls
        cases hcls
      obtain ⟨hr, hb⟩ := bitlen_oddPart_add hn (hx rm)
      have hb1 := one_le_bitlen hr
      cases h
      refine ⟨fun k v e => ?_, fun w e => ?_, hzero⟩
      · cases e
        exact lt_of_lt_of_le (lt_two_pow_bitlen _) (Nat.pow_le_pow_right (by decide) (by omega))
      · cases e
        rw [countWord_toNat (by omega)]
        omega
    · cases h
      exact ⟨fun k v e => by cases e; exact hpos, fun w e => (by cases e; simpa using hw0), hzero⟩
    · cases h
      exact ⟨fun k v e => by cases e; exact hpos, fun w e => (by cases e; simpa using hw0), hzero⟩
  | mrRound ra rm =>
    simp only [resultOf, mrRoundResult] at h
    split at h
    · cases h
    · rename_i hdom
      split at h
      · cases h
      · obtain ⟨hr, hb⟩ := bitlen_oddPart_add (c := c) (n := readReg x rm) (by omega) (hx rm)
        have hb1 := one_le_bitlen hr
        obtain ⟨q, hq, hcnt⟩ := mrRoundRun_cnt (readReg x ra) (readReg x rm)
        have hp := popcount_le_bitlen (oddPart (readReg x rm)).1
        cases h
        refine ⟨fun k v e => (by cases e), fun w e => ?_, ?_⟩
        · cases e
          rw [countWord_toNat (by omega)]
          omega
        · rw [hcnt, countWord_toNat (by omega)]
          omega

end Sys2Proof.Machine
end

