-- ==== Sys2Proof/Laws/Decode.lean ====
section
/-! SUPPORT. Command words by their fields: a word is its nine fields (30_encoding.md R91), and a row's match and mask
test is a test on them. -/

namespace Sys2Proof

/-- Bitwise AND, field by field. -/
def CommandFields.and (f g : CommandFields) : CommandFields :=
  ⟨f.op &&& g.op, f.rd &&& g.rd, f.res11 &&& g.res11, f.ra &&& g.ra, f.res15 &&& g.res15, f.rb &&& g.rb,
    f.res19 &&& g.res19, f.rm &&& g.rm, f.resHigh &&& g.resHigh⟩

theorem fieldsOf_and (u v : Word) : fieldsOf (u &&& v) = (fieldsOf u).and (fieldsOf v) := by
  simp only [fieldsOf, CommandFields.and, BitVec.extractLsb'_and]

theorem extractLsb'_toNat_eq (w : Word) (lo n : Nat) : (w.extractLsb' lo n).toNat = w.toNat / 2 ^ lo % 2 ^ n := by
  rw [BitVec.extractLsb'_toNat, Nat.shiftRight_eq_div_pow]

/-- A word is determined by its fields. -/
theorem word_ext {u v : Word} (h : fieldsOf u = fieldsOf v) : u = v := by
  have key : ∀ lo n, u.extractLsb' lo n = v.extractLsb' lo n →
      u.toNat / 2 ^ (lo + n) = v.toNat / 2 ^ (lo + n) → u.toNat / 2 ^ lo = v.toNat / 2 ^ lo := by
    intro lo n h hi
    have hlo : u.toNat / 2 ^ lo % 2 ^ n = v.toNat / 2 ^ lo % 2 ^ n := by
      rw [← extractLsb'_toNat_eq, ← extractLsb'_toNat_eq, h]
    rw [pow_add, ← Nat.div_div_eq_div_mul, ← Nat.div_div_eq_div_mul] at hi
    rw [← Nat.div_add_mod (u.toNat / 2 ^ lo) (2 ^ n), hi, hlo, Nat.div_add_mod]
  have top : u.toNat / 2 ^ 32 = v.toNat / 2 ^ 32 := by
    rw [Nat.div_eq_of_lt u.isLt, Nat.div_eq_of_lt v.isLt]
  have h23 := key 23 9 (congrArg CommandFields.resHigh h) top
  have h20 := key 20 3 (congrArg CommandFields.rm h) h23
  have h19 := key 19 1 (congrArg CommandFields.res19 h) h20
  have h16 := key 16 3 (congrArg CommandFields.rb h) h19
  have h15 := key 15 1 (congrArg CommandFields.res15 h) h16
  have h12 := key 12 3 (congrArg CommandFields.ra h) h15
  have h11 := key 11 1 (congrArg CommandFields.res11 h) h12
  have h8 := key 8 3 (congrArg CommandFields.rd h) h11
  have h0 := key 0 8 (congrArg CommandFields.op h) h8
  apply BitVec.eq_of_toNat_eq
  simpa using h0

/-- The match and mask test, field by field. -/
theorem selects_iff (r : CommandRow) (w : Word) :
    r.selects w = true ↔ (fieldsOf w).and (fieldsOf r.mask) = fieldsOf r.pattern := by
  rw [CommandRow.selects, beq_iff_eq, ← fieldsOf_and]
  exact ⟨fun h => by rw [h], fun h => word_ext h⟩

/-- A register index is its 3-bit field (30_encoding.md R92). -/
theorem regAt_val (w : Word) (lo : Nat) : (regAt w lo).val = (w.extractLsb' lo 3).toNat := by
  rw [extractLsb'_toNat_eq]
  rfl

/-- The fields of an encoded word: OP and the four indices in place, every reserved bit 0 (30_encoding.md R108). -/
theorem fieldsOf_encodeFields (op : Nat) (h : op < 2 ^ 8) (rd ra rb rm : Reg) :
    fieldsOf (encodeFields op rd ra rb rm) =
      ⟨BitVec.ofNat 8 op, BitVec.ofNat 3 rd, 0#1, BitVec.ofNat 3 ra, 0#1, BitVec.ofNat 3 rb, 0#1,
        BitVec.ofNat 3 rm, 0#9⟩ := by
  have h1 := rd.isLt
  have h2 := ra.isLt
  have h3 := rb.isLt
  have h4 := rm.isLt
  have hw : (encodeFields op rd ra rb rm).toNat =
      op + rd.val * 2 ^ 8 + ra.val * 2 ^ 12 + rb.val * 2 ^ 16 + rm.val * 2 ^ 20 := by
    rw [encodeFields, BitVec.toNat_ofNat]
    apply Nat.mod_eq_of_lt
    omega
  simp only [fieldsOf, CommandFields.mk.injEq]
  refine ⟨?_, ?_, ?_, ?_, ?_, ?_, ?_, ?_, ?_⟩ <;>
    (apply BitVec.eq_of_toNat_eq; rw [extractLsb'_toNat_eq, hw, BitVec.toNat_ofNat]; omega)

/-- The register fields of an encoded word. -/
theorem regs_encodeFields (op : Nat) (h : op < 2 ^ 8) (rd ra rb rm : Reg) :
    rdOf (encodeFields op rd ra rb rm) = rd ∧ raOf (encodeFields op rd ra rb rm) = ra ∧
    rbOf (encodeFields op rd ra rb rm) = rb ∧ rmOf (encodeFields op rd ra rb rm) = rm := by
  have hf := fieldsOf_encodeFields op h rd ra rb rm
  have val : ∀ (r : Reg), (BitVec.ofNat 3 r.val).toNat = r.val := fun r => by
    rw [BitVec.toNat_ofNat]; exact Nat.mod_eq_of_lt r.isLt
  refine ⟨?_, ?_, ?_, ?_⟩ <;> apply Fin.ext
  · rw [rdOf, regAt_val, ← val rd]; exact congrArg BitVec.toNat (congrArg CommandFields.rd hf)
  · rw [raOf, regAt_val, ← val ra]; exact congrArg BitVec.toNat (congrArg CommandFields.ra hf)
  · rw [rbOf, regAt_val, ← val rb]; exact congrArg BitVec.toNat (congrArg CommandFields.rb hf)
  · rw [rmOf, regAt_val, ← val rm]; exact congrArg BitVec.toNat (congrArg CommandFields.rm hf)

/-! ### The five masks of 30_encoding.md R95 as field tests -/

theorem and_ones1 (b : BitVec 1) : b &&& 1#1 = b := BitVec.and_allOnes
theorem and_ones3 (b : BitVec 3) : b &&& 7#3 = b := BitVec.and_allOnes
theorem and_ones8 (b : BitVec 8) : b &&& 255#8 = b := BitVec.and_allOnes
theorem and_ones9 (b : BitVec 9) : b &&& 511#9 = b := BitVec.and_allOnes

/-- The pattern of an opcode alone. -/
def opFields (op : BitVec 8) : CommandFields := ⟨op, 0, 0, 0, 0, 0, 0, 0, 0⟩

/-- Mask 0xFF8888FF tests OP and the reserved bits. -/
theorem selects_allFields {p : Word} {op : BitVec 8} {mn : String} {b : Word → Instr} (w : Word)
    (hp : fieldsOf p = opFields op) :
    (CommandRow.mk mn p 0xFF8888FF#32 b).selects w = true ↔
      (fieldsOf w).op = op ∧ (fieldsOf w).reservedClear = true := by
  have hm : fieldsOf 0xFF8888FF#32 = ⟨255, 0, 1, 0, 1, 0, 1, 0, 511⟩ := by decide
  rw [selects_iff, hp, hm]
  simp [opFields, CommandFields.and, CommandFields.reservedClear, and_ones1, and_ones8, and_ones9]
  tauto

/-- Mask 0xFF8F88FF also tests RB. -/
theorem selects_withoutRb {p : Word} {op : BitVec 8} {mn : String} {b : Word → Instr} (w : Word)
    (hp : fieldsOf p = opFields op) :
    (CommandRow.mk mn p 0xFF8F88FF#32 b).selects w = true ↔
      (fieldsOf w).op = op ∧ (fieldsOf w).reservedClear = true ∧ (fieldsOf w).rb = 0 := by
  have hm : fieldsOf 0xFF8F88FF#32 = ⟨255, 0, 1, 0, 1, 7, 1, 0, 511⟩ := by decide
  rw [selects_iff, hp, hm]
  simp [opFields, CommandFields.and, CommandFields.reservedClear, and_ones1, and_ones3, and_ones8, and_ones9]
  tauto

/-- Mask 0xFFF888FF also tests RM. -/
theorem selects_withoutRm {p : Word} {op : BitVec 8} {mn : String} {b : Word → Instr} (w : Word)
    (hp : fieldsOf p = opFields op) :
    (CommandRow.mk mn p 0xFFF888FF#32 b).selects w = true ↔
      (fieldsOf w).op = op ∧ (fieldsOf w).reservedClear = true ∧ (fieldsOf w).rm = 0 := by
  have hm : fieldsOf 0xFFF888FF#32 = ⟨255, 0, 1, 0, 1, 0, 1, 7, 511⟩ := by decide
  rw [selects_iff, hp, hm]
  simp [opFields, CommandFields.and, CommandFields.reservedClear, and_ones1, and_ones3, and_ones8, and_ones9]
  tauto

/-- Mask 0xFF8FF8FF also tests RA and RB. -/
theorem selects_withoutRaRb {p : Word} {op : BitVec 8} {mn : String} {b : Word → Instr} (w : Word)
    (hp : fieldsOf p = opFields op) :
    (CommandRow.mk mn p 0xFF8FF8FF#32 b).selects w = true ↔
      (fieldsOf w).op = op ∧ (fieldsOf w).reservedClear = true ∧ (fieldsOf w).ra = 0 ∧ (fieldsOf w).rb = 0 := by
  have hm : fieldsOf 0xFF8FF8FF#32 = ⟨255, 0, 1, 7, 1, 7, 1, 0, 511⟩ := by decide
  rw [selects_iff, hp, hm]
  simp [opFields, CommandFields.and, CommandFields.reservedClear, and_ones1, and_ones3, and_ones8, and_ones9]
  tauto

/-- Mask 0xFF8F8FFF also tests RD and RB. -/
theorem selects_withoutRdRb {p : Word} {op : BitVec 8} {mn : String} {b : Word → Instr} (w : Word)
    (hp : fieldsOf p = opFields op) :
    (CommandRow.mk mn p 0xFF8F8FFF#32 b).selects w = true ↔
      (fieldsOf w).op = op ∧ (fieldsOf w).reservedClear = true ∧ (fieldsOf w).rd = 0 ∧ (fieldsOf w).rb = 0 := by
  have hm : fieldsOf 0xFF8F8FFF#32 = ⟨255, 7, 1, 0, 1, 7, 1, 0, 511⟩ := by decide
  rw [selects_iff, hp, hm]
  simp [opFields, CommandFields.and, CommandFields.reservedClear, and_ones1, and_ones3, and_ones8, and_ones9]
  tauto

/-- A register index read from a word is its field. -/
theorem ofNat_regAt (w : Word) (lo : Nat) : BitVec.ofNat 3 (regAt w lo).val = w.extractLsb' lo 3 := by
  apply BitVec.eq_of_toNat_eq
  rw [regAt_val, BitVec.toNat_ofNat, Nat.mod_eq_of_lt (BitVec.isLt _)]

/-- Decoding is the row found, or a rejection. -/
theorem decode_eq_ok {w : Word} {i : Instr} (h : decode w = .ok i) :
    ∃ r ∈ commandRows, r.selects w = true ∧ i = r.build w := by
  unfold decode at h
  split at h
  · rename_i r hf
    cases h
    exact ⟨r, List.mem_of_find?_eq_some hf, List.find?_some (p := fun q : CommandRow => q.selects w) hf, rfl⟩
  · cases h

/-- A row's opcode is in the low byte of every word it selects. -/
theorem op_of_selects {w : Word} {r : CommandRow} (hr : r ∈ commandRows) (h : r.selects w = true) :
    (fieldsOf w).op = r.pattern.extractLsb' 0 8 := by
  simp only [commandRows, List.mem_cons, List.not_mem_nil, or_false] at hr
  rcases hr with rfl | rfl | rfl | rfl | rfl | rfl | rfl | rfl | rfl
  all_goals first
    | rw [selects_allFields (op := _) (hp := by rfl)] at h; exact h.1
    | rw [selects_withoutRb (op := _) (hp := by rfl)] at h; exact h.1
    | rw [selects_withoutRm (op := _) (hp := by rfl)] at h; exact h.1
    | rw [selects_withoutRaRb (op := _) (hp := by rfl)] at h; exact h.1
    | rw [selects_withoutRdRb (op := _) (hp := by rfl)] at h; exact h.1

/-- A row is determined by its opcode. -/
theorem row_eq_of_op {r q : CommandRow} (hr : r ∈ commandRows) (hq : q ∈ commandRows)
    (h : r.pattern.extractLsb' 0 8 = q.pattern.extractLsb' 0 8) : r = q := by
  simp only [commandRows, List.mem_cons, List.not_mem_nil, or_false] at hr hq
  rcases hr with rfl | rfl | rfl | rfl | rfl | rfl | rfl | rfl | rfl <;>
    rcases hq with rfl | rfl | rfl | rfl | rfl | rfl | rfl | rfl | rfl <;>
    first | rfl | exact absurd h (by decide)

/-- A word decodes by the row that selects it. -/
theorem decode_of_selects {w : Word} {r : CommandRow} (hr : r ∈ commandRows) (h : r.selects w = true) :
    decode w = .ok (r.build w) := by
  unfold decode
  split
  · rename_i q hf
    have hq := List.mem_of_find?_eq_some hf
    have hs := List.find?_some (p := fun q : CommandRow => q.selects w) hf
    rw [row_eq_of_op hq hr ((op_of_selects hq hs).symm.trans (op_of_selects hr h))]
  · rename_i hf
    exact absurd h (List.find?_eq_none.1 hf r hr)

theorem decode_eq_error {w : Word} {e : Reject} (h : decode w = .error e) :
    e = rejectReason w ∧ ∀ r ∈ commandRows, r.selects w = false := by
  unfold decode at h
  split at h
  · cases h
  · rename_i hf
    cases h
    refine ⟨rfl, fun r hr => ?_⟩
    simpa using List.find?_eq_none.1 hf r hr

end Sys2Proof
end

