-- ==== Sys2Proof/Laws/PerInstr.lean ====
section
/-! SUPPORT. The family EncodedWellFormed: what is said of every command as syntax, one lemma per constructor. -/

namespace Sys2Proof.Laws.EncodedWellFormed

/-- The word a command encodes to is legal: assigned opcode, reserved bits and unused fields 0 (30_encoding.md R94, R96). -/
def Statement (i : Instr) : Prop := (fieldsOf (encode i)).wellFormed = true

theorem modmul (rd ra rb rm : Reg) : Statement (.modmul rd ra rb rm) := by
  rw [Statement, encode, fieldsOf_encodeFields _ (by decide)]; rfl

theorem montmul (rd ra rb rm : Reg) : Statement (.montmul rd ra rb rm) := by
  rw [Statement, encode, fieldsOf_encodeFields _ (by decide)]; rfl

theorem montTo (rd ra rm : Reg) : Statement (.montTo rd ra rm) := by
  rw [Statement, encode, fieldsOf_encodeFields _ (by decide)]; rfl

theorem montFrom (rd ra rm : Reg) : Statement (.montFrom rd ra rm) := by
  rw [Statement, encode, fieldsOf_encodeFields _ (by decide)]; rfl

theorem modexp (rd ra rb rm : Reg) : Statement (.modexp rd ra rb rm) := by
  rw [Statement, encode, fieldsOf_encodeFields _ (by decide)]; rfl

theorem gcd (rd ra rb : Reg) : Statement (.gcd rd ra rb) := by
  rw [Statement, encode, fieldsOf_encodeFields _ (by decide)]; rfl

theorem modinv (rd ra rm : Reg) : Statement (.modinv rd ra rm) := by
  rw [Statement, encode, fieldsOf_encodeFields _ (by decide)]; rfl

theorem mrPre (rd rm : Reg) : Statement (.mrPre rd rm) := by
  rw [Statement, encode, fieldsOf_encodeFields _ (by decide)]; rfl

theorem mrRound (ra rm : Reg) : Statement (.mrRound ra rm) := by
  rw [Statement, encode, fieldsOf_encodeFields _ (by decide)]; rfl

end Sys2Proof.Laws.EncodedWellFormed
end

