-- ==== Sys2Proof/Laws/Step.lean ====
section
/-! SUPPORT. What one step can do, said once. -/

namespace Sys2Proof.Machine

/-- The engine's step completes `execute` on the snapshot (30_encoding.md R102, R103). -/
theorem engineMove_of_inflight {s : State} {c : Command} (h : s.inflight = some c) :
    engineMove s = .next (complete (execute s.cfg c.word c.snap) s) := by
  unfold engineMove execute
  rw [h]
  dsimp only
  split
  · rw [exec_eq_complete, sources_of_inflight h]
  · rfl

theorem engineMove_of_idle {s : State} (h : s.inflight = none) : engineMove s = .next s := by
  simp [engineMove, h]

/-- Everything a step can do: the coming events are `rest` afterwards. -/
inductive StepEffect (s : State) (rest : List Event) : State → Prop where
  /-- A completion. -/
  | complete (c : Command) : s.inflight = some c → s.inputs = [] ∨ s.inputs = .engine :: rest →
      StepEffect s rest (complete (execute s.cfg c.word c.snap) { s with inputs := rest })
  /-- The engine had nothing to do. -/
  | idle : s.inflight = none → StepEffect s rest { s with inputs := rest }
  | bus (t : Txn) : s.inputs = .bus t :: rest → StepEffect s rest (transact t { s with inputs := rest })
  | rst : s.inputs = .rst :: rest → StepEffect s rest (resetBlock { s with inputs := rest })

theorem step_effect (s : State) : ∃ t, step s = .next t ∧ StepEffect s s.inputs.tail t := by
  cases hi : s.inputs with
  | nil =>
    have hs : ({ s with inputs := [] } : State) = s := by cases s; simp_all
    cases hf : s.inflight with
    | none =>
      refine ⟨s, by simp [step, hi, engineMove_of_idle hf], ?_⟩
      have := StepEffect.idle (s := s) (rest := []) hf
      rwa [hs] at this
    | some c =>
      refine ⟨_, by simp only [step, hi]; exact engineMove_of_inflight hf, ?_⟩
      have := StepEffect.complete (s := s) (rest := []) c hf (.inl hi)
      rwa [hs] at this
  | cons e es =>
    cases e with
    | bus t => exact ⟨_, by simp [step, hi], .bus t hi⟩
    | rst => exact ⟨_, by simp [step, hi], .rst hi⟩
    | engine =>
      cases hf : s.inflight with
      | none =>
        exact ⟨_, by simp only [step, hi]; exact engineMove_of_idle (s := { s with inputs := es }) hf, .idle hf⟩
      | some c =>
        exact ⟨_, by simp only [step, hi]; exact engineMove_of_inflight (s := { s with inputs := es }) hf,
          .complete c hf (.inr hi)⟩

/-- Use of `step_effect` on a step already known. -/
theorem step_effect_of_eq {s t : State} (h : step s = .next t) : StepEffect s s.inputs.tail t := by
  obtain ⟨u, hu, he⟩ := step_effect s
  rw [h] at hu
  cases hu
  exact he

theorem step_bus {s : State} {t : Txn} {es : List Event} (h : s.inputs = .bus t :: es) :
    step s = .next (transact t { s with inputs := es }) := by
  simp [step, h]

theorem step_windowWrite {s : State} {i : Reg} {j : Nat} {v : Word} {es : List Event} (hb : s.busy = false)
    (hj : j ≤ 127) (h : s.inputs = .bus (.write (limbOffset i j) 4 v) :: es) :
    step s = .next (respond .ok (windowWrite i j v { s with inputs := es })) := by
  rw [step_bus h, transact_write, busWrite_window _ i v (by exact hb) hj]

theorem step_windowRead {s : State} {i : Reg} {j : Nat} {es : List Event} (hb : s.busy = false)
    (hj : j ≤ 127) (h : s.inputs = .bus (.read (limbOffset i j) 4) :: es) :
    step s = .next (respond (.data (windowRead s i j)) { s with inputs := es }) := by
  rw [step_bus h, transact_read, busRead_window _ i (by exact hb) hj]
  rfl

theorem step_issue {s : State} {v : Word} {es : List Event} (hb : s.busy = false)
    (h : s.inputs = .bus (.write 0x010 4 v) :: es) :
    step s = .next (respond .ok (issue v { s with inputs := es })) := by
  rw [step_bus h, transact_write, busWrite_cmd _ (by exact hb)]

/-! ### Runs -/

theorem run_zero (s : State) : Host.Core.run Sys2Proof.core 0 s = .next s := rfl

theorem run_succ {s t : State} (n : Nat) (h : step s = .next t) :
    Host.Core.run Sys2Proof.core (n + 1) s = Host.Core.run Sys2Proof.core n t := by
  have h' : Sys2Proof.core.step s = .next t := h
  simp only [Host.Core.run, h']

theorem run_one {s t : State} (h : step s = .next t) : Host.Core.run Sys2Proof.core 1 s = .next t := run_succ 0 h

/-- A run of m + n steps is a run of m steps and then of n. -/
theorem run_add (m n : Nat) : ∀ (s t : State), Host.Core.run Sys2Proof.core m s = .next t →
    Host.Core.run Sys2Proof.core (m + n) s = Host.Core.run Sys2Proof.core n t := by
  induction m with
  | zero => intro s t h; cases h; simp
  | succ m ih =>
    intro s t h
    obtain ⟨u, hu, -⟩ := step_effect s
    rw [run_succ m hu] at h
    rw [Nat.add_right_comm, run_succ _ hu]
    exact ih u t h

end Sys2Proof.Machine
end

