-- ==== Sys2Proof/Laws/Units.lean ====
section
/-! SUPPORT. What the units compute, said once: the modulus checks, the Montgomery inverse, a Miller-Rabin round. -/

namespace Sys2Proof.Machine

/-! ### Checks -/

theorem withModulus_of_lt {N : Nat} (h : 1 < N) (k : Result) : withModulus N k = k := by
  rw [withModulus, if_neg (by omega)]

theorem withModulus_of_le {N : Nat} (h : N ≤ 1) (k : Result) : withModulus N k = .err .modulusSmall := by
  rw [withModulus, if_pos h]

theorem withOddModulus_of_odd {N : Nat} (h : 1 < N) (ho : N % 2 = 1) (k : Result) : withOddModulus N k = k := by
  rw [withOddModulus, withModulus_of_lt h, if_neg (by omega)]

theorem withOddModulus_of_even {N : Nat} (h : 1 < N) (he : N % 2 = 0) (k : Result) :
    withOddModulus N k = .err .modulusEven := by
  rw [withOddModulus, withModulus_of_lt h, if_pos he]

/-- No command reports NO_ERROR as its error (60_exceptions.md R220). -/
theorem resultOf_err_ne {c : Config} {x : Regs} {i : Instr} {code : ErrCode} (h : resultOf c x i = .err code) :
    code ≠ .noError := by
  revert h
  cases i <;> simp only [resultOf, modmulResult, montmulResult, montToResult, montFromResult, modexpResult, gcdResult,
      modinvResult, mrPreResult, mrRoundResult, withOddModulus, withModulus] <;>
    (repeat' split) <;> intro h <;> cases h <;> decide

/-! ### The Montgomery inverse (40_modmul_montgomery.md R122) -/

theorem gcd_two_pow_mod {N : Nat} (ho : N % 2 = 1) (n : Nat) : Nat.gcd (2 ^ n % N) N = 1 := by
  rw [← Nat.gcd_rec, Nat.gcd_comm]
  apply Nat.Coprime.pow_left
  rw [Nat.coprime_two_left, Nat.odd_iff]; exact ho

/-- An odd modulus is coprime to R. -/
theorem gcd_radix {N : Nat} (ho : N % 2 = 1) (c : Config) : Nat.gcd N c.radix = 1 := by
  have := gcd_two_pow_mod ho c.width
  rw [← Nat.gcd_rec] at this
  exact this

/-- (a·R^-1 mod N)·R ≡ a modulo N. -/
theorem mul_radix_inverse {N : Nat} (h : 1 < N) (ho : N % 2 = 1) (c : Config) (a : Nat) :
    (a * invMod (c.radix % N) N % N) * c.radix % N = a % N := by
  have hs := (invMod_spec h (gcd_two_pow_mod ho c.width)).1
  change (c.radix % N) * invMod (c.radix % N) N % N = 1 at hs
  have : (a * invMod (c.radix % N) N % N) * c.radix ≡ a [MOD N] := by
    calc (a * invMod (c.radix % N) N % N) * c.radix
        ≡ (a * invMod (c.radix % N) N) * c.radix [MOD N] := (Nat.mod_modEq _ _).mul_right _
      _ = a * (c.radix * invMod (c.radix % N) N) := by ring
      _ ≡ a * ((c.radix % N) * invMod (c.radix % N) N) [MOD N] :=
        ((Nat.mod_modEq _ _).symm.mul_right _).mul_left _
      _ ≡ a * 1 [MOD N] := Nat.ModEq.mul_left _ (by rw [Nat.ModEq, hs, Nat.mod_eq_of_lt h])
      _ = a := by ring
  exact this

/-! ### A Miller-Rabin round -/

/-- One round of 43_primality.md R191, R192: q squarings, and it passes iff some value of the sequence says so. -/
theorem mrRoundRun_spec {a n : Nat} (hn : 5 ≤ n) (ho : n % 2 = 1) :
   ∃ q, q ≤ (oddPart n).2 - 1 ∧
      (∀ j < q, a ^ (2 ^ j * (oddPart n).1) % n ≠ 1 ∧ a ^ (2 ^ j * (oddPart n).1) % n ≠ n - 1) ∧
      (q = (oddPart n).2 - 1 ∨ a ^ (2 ^ q * (oddPart n).1) % n = 1 ∨ a ^ (2 ^ q * (oddPart n).1) % n = n - 1) ∧
      ((mrRoundRun a n).composite = false ↔ a ^ (oddPart n).1 % n = 1 ∨ ∃ j < (oddPart n).2, a ^ (2 ^ j * (oddPart n).1) % n = n - 1) ∧
      (mrRoundRun a n).cnt = bitlen (oddPart n).1 + popcount (oddPart n).1 + q := by
  have hs1 := one_le_oddPart_snd (n := n) (by omega) ho
  generalize hr : (oddPart n).1 = r at *
  generalize he : (oddPart n).2 = e at *
  have hn1 : 1 < n := by omega
  have hsq := fun i => squared_pow hn1 a r i 0
  simp only [pow_zero, one_mul, zero_add] at hsq
  unfold mrRoundRun
  simp only [modexpCounted_snd, modexpCounted_fst hn1, hr, he]
  by_cases hy : a ^ r % n ≠ 1 ∧ a ^ r % n ≠ n - 1
  · rw [if_pos hy]
    obtain ⟨q, hq, hc, hv, hb, hend, hcomp⟩ := squareLoop_spec n (e - 1) (a ^ r % n) (bitlen r + popcount r) hy.1
    simp only [hsq] at hv hb hend hcomp
    refine ⟨q, hq, hb, hend, ?_, hc⟩
    simp only [hcomp, hv, Bool.or_eq_false_iff, decide_eq_false_iff_not]
    have hne : n - 1 ≠ 1 := by omega
    constructor
    · intro ⟨h1, h2⟩
      right
      exact ⟨q, by omega, by simpa using h2⟩
    · rintro (h | ⟨j, hj, hjv⟩)
      · exact absurd h hy.1
      · have hjq : q ≤ j := by
          by_contra hlt
          exact (hb j (by omega)).2 hjv
        have key : ∀ i, a ^ (2 ^ q * r) % n = 1 → a ^ (2 ^ (q + i) * r) % n = 1 := by
          intro i h
          have : a ^ (2 ^ (q + i) * r) = (a ^ (2 ^ q * r)) ^ (2 ^ i) := by rw [← pow_mul]; congr 1; rw [pow_add]; ring
          rw [this, Nat.pow_mod, h, one_pow, Nat.mod_eq_of_lt hn1]
        rcases hend with hq' | h1 | h1
        · have : j = q := by omega
          subst this
          rw [hjv]; simp [hne]
        · have := key (j - q) h1
          rw [show q + (j - q) = j by omega, hjv] at this
          exact absurd this hne
        · rw [h1]; simp [hne]
  · rw [if_neg hy]
    refine ⟨0, by omega, by simp, ?_, ?_, by simp⟩
    · simp only [pow_zero, one_mul]; right; tauto
    · simp only [true_iff]
      by_cases h1 : a ^ r % n = 1
      · exact .inl h1
      · right; refine ⟨0, by omega, ?_⟩
        simp only [pow_zero, one_mul]; tauto

end Sys2Proof.Machine
end

