-- ==== Sys2Proof/Tests/Slice0.lean ====
section
/-! SUPPORT. Tests against the spec's own vectors (95_test_vectors.md and the rules' worked examples), and for every
obligation with hypotheses a witness that meets them. -/

namespace Sys2Proof.Machine.Tests

open Sys2Proof Sys2Proof.Machine

/-! ### Helpers -/

/-- An idle RMAU with L = 1 and the registers given. -/
def idle (x : Regs) : State := { State.resetOf ⟨1, 0⟩ with x := x }

/-- The same, with word w issued and the events given still to come. -/
def running (w : Word) (x : Regs) (es : List Event) : State := { issue w (idle x) with inputs := es }

/-- The same after some word completed, with IRQ_EN = 1. -/
def finished (x : Regs) (es : List Event) : State := { idle x with done := true, irqEn := true, inputs := es }

/-- What a command leaves: x[d], FLAGS, MR_S, OPCNT and the error code. -/
def outcome (i : Instr) (d : Reg) (x : Regs) : Option (Nat × Word × Word × Word × ErrCode) :=
  match exec i (idle x) with
  | .next t => some (readReg t.x d, t.flags, t.mrs, t.opcnt, t.errcode)
  | .fault _ => none
  | .refused _ => none

/-- The response to one transaction. -/
def response (t : Txn) (s : State) : Option Response := (transact t s).responses.head?

/-- Any state but for its registers: the operands a = 7, b = 11, N = 13 of 40_modmul_montgomery.md. -/
def abn : Regs := #v[7, 11, 13, 0, 0, 0, 0, 0]

/-! ### WellFormed: an ill-formed term for each check, which the check refuses -/

theorem test_wellFormed_refuses_unassigned_opcode :
    (fieldsOf 0x00000009#32).opAssigned = false ∧ (fieldsOf 0x00000009#32).wellFormed = false := by decide

theorem test_wellFormed_refuses_reserved_bit :
    (fieldsOf 0x01000008#32).reservedClear = false ∧ (fieldsOf 0x01000008#32).wellFormed = false ∧
    (fieldsOf 0x00000808#32).reservedClear = false ∧ (fieldsOf 0x00008008#32).reservedClear = false ∧
    (fieldsOf 0x00080008#32).reservedClear = false := by decide

theorem test_wellFormed_refuses_unused_field :
    (fieldsOf 0x00110010#32).unusedClear = false ∧ (fieldsOf 0x00110010#32).wellFormed = false ∧
    (fieldsOf 0x00210318#32).unusedClear = false ∧ (fieldsOf 0x00201119#32).unusedClear = false := by decide

/-! ### Decoding: the words of 95_test_vectors.md section 2.12 and of 30_encoding.md R108, bit by bit -/

theorem test_decode_modmul : decode 0b00000000001000010000001100000001#32 = .ok (.modmul 3 0 1 2) := by rfl
theorem test_decode_montmul : decode 0b00000000001000010000001100000010#32 = .ok (.montmul 3 0 1 2) := by rfl
theorem test_decode_montTo : decode 0b00000000001000000000001100000011#32 = .ok (.montTo 3 0 2) := by rfl
theorem test_decode_montFrom : decode 0b00000000001000000000001100000100#32 = .ok (.montFrom 3 0 2) := by rfl
theorem test_decode_modexp : decode 0b00000000001000010000001100001000#32 = .ok (.modexp 3 0 1 2) := by rfl
theorem test_decode_gcd : decode 0b00000000000000010000000000010000#32 = .ok (.gcd 0 0 1) := by rfl
theorem test_decode_modinv : decode 0b00000000001000000000000000010001#32 = .ok (.modinv 0 0 2) := by rfl
theorem test_decode_mrPre : decode 0b00000000001000000000001100011000#32 = .ok (.mrPre 3 2) := by rfl
theorem test_decode_mrRound : decode 0b00000000001000000001000000011001#32 = .ok (.mrRound 1 2) := by rfl

theorem test_decode_refuses :
    decode 0x00110010#32 = .error .unusedFieldSet ∧ decode 0x00210318#32 = .error .unusedFieldSet ∧
    decode 0x00000800#32 = .error (.unassignedOpcode 0) ∧ decode 0x01000008#32 = .error .reservedBitSet ∧
    decode 0x0000001A#32 = .error (.unassignedOpcode 0x1A) ∧
    decode 0x00000009#32 = .error (.unassignedOpcode 9) := ⟨rfl, rfl, rfl, rfl, rfl, rfl⟩

theorem test_encode_worked_example : encode (.modexp 3 0 1 2) = 0x00210308#32 := by decide

theorem test_assemble_is_case_insensitive :
    assembleWord "ModExp" ["x3", "x0", "x1", "x2"] = some 0x00210308#32 ∧ assemble "GCD" ["x0", "x8", "x1"] = none ∧
    assemble "GCD" ["x0", "x1"] = none := by decide

theorem test_fetched_word_runs_first_after_reset :
    step (State.reset.withFetchWord 32 0x00010010) = exec (.gcd 0 0 1) (issue 0x00010010#32 State.reset) := by rfl

/-! ### The commands: the rules' worked examples and corner cases -/

theorem test_modmul_example : outcome (.modmul 3 0 1 2) 3 abn = some (12, 0#32, 0#32, 1#32, .noError) := by decide
theorem test_modmul_all_operands_one_register :
    outcome (.modmul 1 1 1 1) 1 #v[0, 5, 0, 0, 0, 0, 0, 0] = some (0, 0#32, 0#32, 1#32, .noError) := by decide
theorem test_montmul_example : outcome (.montmul 3 0 1 2) 3 abn = some (10, 0#32, 0#32, 1#32, .noError) := by decide
theorem test_montmul_reports_small_modulus_first :
    outcome (.montmul 3 0 1 2) 3 #v[5, 0, 0, 0, 0, 0, 0, 0] = some (0, 0#32, 0#32, 0#32, .modulusSmall) := by decide
theorem test_montTo_example : outcome (.montTo 3 0 2) 3 abn = some (11, 0#32, 0#32, 1#32, .noError) := by decide
theorem test_montTo_refuses_even_modulus :
    outcome (.montTo 3 0 2) 3 #v[7, 0, 14, 9, 0, 0, 0, 0] = some (9, 0#32, 0#32, 0#32, .modulusEven) := by decide
theorem test_montFrom_example : outcome (.montFrom 3 0 2) 3 abn = some (8, 0#32, 0#32, 1#32, .noError) := by decide
theorem test_modexp_example :
    outcome (.modexp 3 0 1 2) 3 #v[4, 13, 497, 0, 0, 0, 0, 0] = some (445, 0#32, 0#32, 7#32, .noError) := by decide
theorem test_modexp_zero_exponent :
    outcome (.modexp 3 0 1 2) 3 #v[0, 0, 10, 0, 0, 0, 0, 0] = some (1, 0#32, 0#32, 0#32, .noError) := by decide
theorem test_gcd_example :
    outcome (.gcd 0 0 1) 0 #v[48, 18, 0, 0, 0, 0, 0, 0] = some (6, 0#32, 0#32, 0#32, .noError) := by decide
theorem test_gcd_zero_zero : outcome (.gcd 0 6 7) 0 abn = some (0, 0#32, 0#32, 0#32, .noError) := by decide
theorem test_modinv_example :
    outcome (.modinv 0 0 2) 0 #v[17, 0, 3120, 0, 0, 0, 0, 0] = some (2753, 0#32, 0#32, 0#32, .noError) := by decide
theorem test_modinv_no_inverse :
    outcome (.modinv 0 0 2) 0 #v[6, 0, 9, 0, 0, 0, 0, 0] = some (0, 2#32, 0#32, 0#32, .noError) := by decide
theorem test_mrPre_example :
    outcome (.mrPre 3 2) 3 #v[0, 0, 561, 0, 0, 0, 0, 0] = some (35, 0x20#32, 4#32, 0#32, .noError) := by decide
theorem test_mrPre_three_is_prime :
    outcome (.mrPre 2 2) 2 #v[0, 0, 3, 0, 0, 0, 0, 0] = some (0, 0x11#32, 0#32, 0#32, .noError) := by decide
theorem test_mrRound_composite :
    outcome (.mrRound 1 2) 3 #v[0, 2, 561, 0, 0, 0, 0, 0] = some (0, 0#32, 4#32, 12#32, .noError) := by decide
theorem test_mrRound_prime_after_four_squarings :
    outcome (.mrRound 1 2) 3 #v[0, 5, 97, 0, 0, 0, 0, 0] = some (0, 1#32, 5#32, 8#32, .noError) := by decide

/-! ### Bus: rows of 95_test_vectors.md section 2.13 (L = 2) -/

theorem test_read_param : busRead (State.resetOf ⟨2, 0⟩) 0x004 4 = .data 0x00000802#32 := by decide
theorem test_window_limb_beyond_width : response (.write 0x1008 4 0x12345678#32) (State.resetOf ⟨2, 0⟩) = some .ok ∧
    busRead (transact (.write 0x1008 4 0x12345678#32) (State.resetOf ⟨2, 0⟩)) 0x1008 4 = .data 0#32 := by decide
theorem test_window_write_then_read :
    busRead (transact (.write 0x1004 4 1#32) (State.resetOf ⟨2, 0⟩)) 0x1004 4 = .data 1#32 ∧
    readReg (transact (.write 0x1004 4 1#32) (State.resetOf ⟨2, 0⟩)).x 0 = 2 ^ 32 := by decide
theorem test_refused_accesses :
    busRead (State.resetOf ⟨2, 0⟩) 0x1001 4 = .busError ∧ busRead (State.resetOf ⟨2, 0⟩) 0x1000 1 = .busError ∧
    busRead (State.resetOf ⟨2, 0⟩) 0x020 4 = .busError ∧
    response (.write 0xFFC 4 1#32) (State.resetOf ⟨2, 0⟩) = some .busError := by decide
theorem test_ctrl_write_keeps_only_irq_enable :
    busRead (transact (.write 0x008 4 0xFFFFFFFD#32) (State.resetOf ⟨2, 0⟩)) 0x008 4 = .data 1#32 := by decide
theorem test_busy_lock :
    busRead (running 0x00201308#32 abn []) 0x00C 4 = .data 1#32 ∧
    busRead (running 0x00201308#32 abn []) 0x1000 4 = .busError ∧
    response (.write 0x010 4 1#32) (running 0x00201308#32 abn []) = some .busError ∧
    busRead (running 0x00201308#32 abn []) 0x010 4 = .data 0x00201308#32 := by decide

/-- 00_scope.md R6: the block lies where BASE places it. -/
theorem test_platform_access_at_base :
    platformAccess ⟨1, 0x40000000⟩ (.read 0x40000004 4) = [.bus (.read 0x004 4)] ∧
    platformAccess ⟨1, 0x40000000⟩ (.write 0x40002000 4 1#32) = [] := by decide

/-- 95_test_vectors.md section 2.14: a soft reset discards the issued MODMUL. -/
theorem test_soft_reset_discards_command :
    transact (.write 0x008 4 2#32) (running 0x00210301#32 abn []) =
      { State.resetOf ⟨1, 0⟩ with responses := [.ok] } := by decide

/-! ### Witnesses: the hypotheses of each obligation can be met -/

/-- An idle state with the invariant, and with an operand of full width. -/
theorem idle_inv (es : List Event) : ({ idle #v[2 ^ 32 - 1, 0, 0, 0, 0, 0, 0, 0] with inputs := es } : State).Inv where
  legal := (by decide : (⟨1, 0⟩ : Config).Legal)
  regs := (by decide : ∀ k : Reg, readReg #v[2 ^ 32 - 1, 0, 0, 0, 0, 0, 0, 0] k < (⟨1, 0⟩ : Config).radix)
  busy_iff := rfl
  busy_quiet := by intro h; cases h
  err_iff := by simp [idle, State.resetOf]
  snap := by intro c h; cases h
  word := by intro c h; cases h
  flags := by simp [idle, State.resetOf]
  mrs := (by decide : (0#32).toNat < (⟨1, 0⟩ : Config).width)
  opcnt := (by decide : (0#32).toNat ≤ 2 * (⟨1, 0⟩ : Config).width)

/-- A busy state with the invariant. -/
theorem running_inv (es : List Event) : (running 0x00210301#32 abn es).Inv where
  legal := (by decide : (⟨1, 0⟩ : Config).Legal)
  regs := (by decide : ∀ k : Reg, readReg abn k < (⟨1, 0⟩ : Config).radix)
  busy_iff := rfl
  busy_quiet := fun _ => ⟨rfl, rfl⟩
  err_iff := by simp [running, issue]
  snap := by intro c h; cases h; rfl
  word := by intro c h; cases h; rfl
  flags := by simp [running, issue, idle, State.resetOf]
  mrs := (by decide : (0#32).toNat < (⟨1, 0⟩ : Config).width)
  opcnt := (by decide : (0#32).toNat ≤ 2 * (⟨1, 0⟩ : Config).width)

theorem witness_StepRunsTheDecodedCommand :
    (running 0x00210301#32 abn []).inflight = some ⟨0x00210301#32, abn⟩ ∧
    decode 0x00210301#32 = .ok (.modmul 3 0 1 2) ∧ (running 0x00210301#32 abn []).inputs = [] ∧
    (running 0x00210301#32 abn [.engine]).inputs = .engine :: [] := ⟨rfl, rfl, rfl, rfl⟩

theorem witness_StepTakesTheNextEvent :
    (finished abn [.bus (.read 0x000 4)]).inputs = .bus (.read 0x000 4) :: [] ∧
    (finished abn [.rst]).inputs = .rst :: [] ∧
    ((finished abn [.engine]).inflight = none ∧ (finished abn [.engine]).inputs = .engine :: []) ∧
    ((finished abn []).inflight = none ∧ (finished abn []).inputs = []) := by decide

theorem witness_IllegalWordCompletesWithIllegalCmd :
    (running 0x00000009#32 abn []).inflight = some ⟨0x00000009#32, abn⟩ ∧
    decode 0x00000009#32 = .error (.unassignedOpcode 9) ∧ (running 0x00000009#32 abn []).inputs = [] ∧
    (running 0x00000009#32 abn [.engine]).inputs = .engine :: [] := ⟨rfl, rfl, rfl, rfl⟩

theorem witness_EngineStepIsTheAtomicCompletion :
    (running 0x00210301#32 abn []).inflight = some ⟨0x00210301#32, abn⟩ ∧
    (running 0x00210301#32 abn []).inputs = [] ∧
    (running 0x00210301#32 abn [.engine, .rst]).inputs = .engine :: [.rst] := by decide

theorem witness_EncodeDecodeRoundTrip : decode 0x00210301#32 = .ok (.modmul 3 0 1 2) := by rfl

theorem witness_LegalWordsAreTheWellFormedWords :
    ((fieldsOf 0x01000008#32).opAssigned = true ∧ (fieldsOf 0x01000008#32).reservedClear = false) ∧
    ((fieldsOf 0x00110010#32).opAssigned = true ∧ (fieldsOf 0x00110010#32).unusedClear = false) := by decide

theorem witness_RejectionsAreNamed :
    decode 0x000000FF#32 = .error (.unassignedOpcode 0xFF) ∧ decode 0x80000001#32 = .error .reservedBitSet ∧
    decode 0x00700010#32 = .error .unusedFieldSet := ⟨rfl, rfl, rfl⟩

theorem witness_MatchAndMaskTable :
    ∃ r ∈ commandRows, ∃ q ∈ commandRows, r.selects 0x00210301#32 = true ∧ q.selects 0x00210301#32 = true :=
  ⟨_, List.mem_cons_self, _, List.mem_cons_self, by decide⟩

/-- A name that is no register's, a line one operand short, and two spellings of one mnemonic. -/
theorem witness_AssemblerRoundTrip :
    (∀ r : Reg, "x8" ≠ regName r) ∧ "x8" ∈ ["x0", "x8", "x1"] ∧
    ["x0", "x1"].length ≠ (operandsOf (.gcd 0 0 1)).length ∧ ["x0", "x1"].length ≠ 3 ∧ ["x0", "x1"].length ≠ 4 ∧
    "ModExp".toList.map Char.toUpper = "MODEXP".toList.map Char.toUpper := by decide

theorem witness_ResetLeavesTheResetTable :
    (running 0x00210301#32 abn [.rst]).Resetting ∧ (finished abn [.bus (.write 0x008 4 3#32)]).Resetting :=
  ⟨.inl ⟨[], rfl⟩, .inr ⟨[], 3#32, rfl, rfl⟩⟩

theorem witness_SoftResetIsOneStep :
    (3#32 : Word)[1] = true ∧
    (running 0x00210301#32 abn [.bus (.write 0x008 4 3#32)]).inputs = .bus (.write 0x008 4 3#32) :: [] := by decide

theorem witness_ResetDiscardsTheCommand :
    (running 0x00210301#32 abn [.rst, .engine]).inputs = .rst :: List.replicate 1 .engine ∧ (2#32 : Word)[1] = true ∧
    (running 0x00210301#32 abn [.bus (.write 0x008 4 2#32), .engine]).inputs =
      .bus (.write 0x008 4 2#32) :: List.replicate 1 .engine := by decide

theorem witness_MalformedAccessIsRefused :
    (accessOk 0x1FFC 4 = true) ∧ ((1 : Nat) ≠ 4 ∨ 0x1000 % 4 ≠ 0) ∧ ((4 : Nat) ≠ 4 ∨ 0x2001 % 4 ≠ 0) := by decide

theorem witness_ReservedOffsetsAreRefused :
    (0x020 % 4 = 0 ∧ 0x020 ≤ 0x020 ∧ 0x020 ≤ 0xFFC) ∧ (0xFFC % 4 = 0 ∧ 0x020 ≤ 0xFFC ∧ 0xFFC ≤ 0xFFC) ∧
    ((idle abn).busy = false ∧ (idle abn).cfg.limbs ≤ 1 ∧ 1 ≤ 127 ∧ 0x1004 = limbOffset 0 1 ∧ 0x1004 % 4 = 0) ∧
    ((idle abn).cfg.limbs ≤ 127 ∧ 127 ≤ 127 ∧ 0x1FFC = limbOffset 7 127 ∧ 0x1FFC % 4 = 0) := by decide

theorem witness_BusyLockRefusesWindowAndCmd :
    (running 0x00210301#32 abn []).busy = true ∧
    refusedBusy (running 0x00210301#32 abn []) 0x1000 false = true ∧
    refusedBusy (running 0x00210301#32 abn []) 0x1FFC true = true ∧
    refusedBusy (running 0x00210301#32 abn []) 0x010 true = true ∧
    refusedBusy (running 0x00210301#32 abn []) 0x010 false = false ∧
    ∃ t, step (running 0x00210301#32 abn [.bus (.read 0x00C 4)]) = .next t ∧ t.busy = true :=
  ⟨rfl, rfl, rfl, rfl, rfl, _, rfl, rfl⟩

theorem witness_ControlAndStatusReads : (State.resetOf ⟨1, 0⟩).cfg.Legal ∧ (State.resetOf ⟨128, 0x2000⟩).cfg.Legal := by decide

theorem witness_ReadOnlyWritesAreIgnored :
    (0x1#32 : Word)[0] = (0xFFFFFFFD#32 : Word)[0] ∧ (0x1#32 : Word)[1] = (0xFFFFFFFD#32 : Word)[1] ∧
    (0x2#32 : Word)[1] = (0xFFFFFFFF#32 : Word)[1] := by decide

theorem witness_StatusWriteClearsDone :
    (running 0x00210301#32 abn []).Inv ∧ (running 0x00210301#32 abn []).busy = true ∧
    ∃ t, step (running 0x00000000#32 abn []) = .next t ∧ t.err ≠ (running 0x00000000#32 abn []).err :=
  ⟨running_inv [], rfl, _, rfl, by decide⟩

theorem witness_CtrlWriteSetsIrqEnable : (0xFFFFFFFD#32 : Word)[1] = false := by decide

theorem witness_WindowAccess :
    (idle abn).busy = false ∧ 127 ≤ 127 ∧ 0 < (idle abn).cfg.limbs ∧ (idle abn).cfg.limbs ≤ 127 := by decide

theorem witness_WindowReadAfterWrite :
    (idle abn).busy = false ∧ 0 < (idle abn).cfg.limbs ∧ 0 ≤ 127 ∧ 127 ≤ 127 ∧
    ((7, 127) : Reg × Nat) ≠ (7, 0) := by decide

theorem witness_BusErrorChangesNothing :
    (transact (.write 0x1000 2 0#32) (finished abn [])).responses = .busError :: (finished abn []).responses ∧
    (transact (.read 0x020 4) (finished abn [])).responses = .busError :: (finished abn []).responses := by decide

/-- The first and the last byte of the block at BASE = 0x2000, and the addresses on either side of it. -/
theorem witness_OutsideTheBlockNothingChanges :
    (0 < 0x2000 ∧ 0x2000 = (⟨1, 0x2000⟩ : Config).base + 0 ∧ 0x1FFF < 0x2000 ∧
      0x3FFF = (⟨1, 0x2000⟩ : Config).base + 0x1FFF ∧ (⟨1, 0x2000⟩ : Config).Legal) ∧
    (0x1FFF < (⟨1, 0x2000⟩ : Config).base ∨ (⟨1, 0x2000⟩ : Config).base + 0x2000 ≤ 0x1FFF) ∧
    (0x4000 < (⟨1, 0x2000⟩ : Config).base ∨ (⟨1, 0x2000⟩ : Config).base + 0x2000 ≤ 0x4000) ∧
    0x2000 ≤ 0x2000 ∧ 0x2000 % 4 = 0 := by decide

theorem witness_CmdWriteIssues : (idle abn).busy = false ∧ (running 0#32 abn []).busy = true ∧
    decode 0#32 = .error (.unassignedOpcode 0) := ⟨rfl, rfl, rfl⟩

theorem witness_CommandLineRunsToCompletion :
    ({ idle abn with inputs := hostCommand (.modmul 3 0 1 2) 2 } : State).busy = false ∧
    ({ idle abn with inputs := hostCommand (.modmul 3 0 1 2) 2 } : State).inputs = hostCommand (.modmul 3 0 1 2) 2 :=
  ⟨rfl, rfl⟩

theorem witness_ModmulCompletes :
    1 < readReg (idle abn).sources 2 ∧ readReg (idle abn).sources 7 ≤ 1 := by decide

theorem witness_MontmulCompletes :
    1 < readReg (idle abn).sources 2 ∧ readReg (idle abn).sources 2 % 2 = 1 ∧
    readReg (idle abn).sources 0 < readReg (idle abn).sources 2 ∧
    readReg (idle abn).sources 1 < readReg (idle abn).sources 2 := by decide

theorem witness_MontToCompletes :
    1 < readReg (idle abn).sources 2 ∧ readReg (idle abn).sources 2 % 2 = 1 := by decide

theorem witness_MontFromCompletes :
    1 < readReg (running 0x00200304#32 abn []).sources 2 ∧
    readReg (running 0x00200304#32 abn []).sources 2 % 2 = 1 := by decide

theorem witness_ModexpCompletes :
    1 < readReg (idle #v[4, 13, 2, 1, 0, 0, 0, 0]).sources 2 ∧
    readReg (idle #v[4, 13, 2, 1, 0, 0, 0, 0]).sources 3 ≤ 1 := by decide

theorem witness_ModinvCompletes :
    (1 < readReg (idle #v[17, 6, 9, 1, 0, 0, 0, 0]).sources 2 ∧
      Nat.gcd (readReg (idle #v[17, 6, 9, 1, 0, 0, 0, 0]).sources 0)
        (readReg (idle #v[17, 6, 9, 1, 0, 0, 0, 0]).sources 2) = 1) ∧
    Nat.gcd (readReg (idle #v[17, 6, 9, 1, 0, 0, 0, 0]).sources 1)
        (readReg (idle #v[17, 6, 9, 1, 0, 0, 0, 0]).sources 2) ≠ 1 ∧
    readReg (idle #v[17, 6, 9, 1, 0, 0, 0, 0]).sources 3 ≤ 1 := by decide

/-- The boundaries of the three classes: 1 and 4, 2 and 3, 5. -/
theorem witness_MrPreCompletes :
    (readReg (idle #v[1, 4, 2, 3, 5, 0, 0, 0]).sources 0 < 2) ∧
    (4 ≤ readReg (idle #v[1, 4, 2, 3, 5, 0, 0, 0]).sources 1 ∧
      readReg (idle #v[1, 4, 2, 3, 5, 0, 0, 0]).sources 1 % 2 = 0) ∧
    readReg (idle #v[1, 4, 2, 3, 5, 0, 0, 0]).sources 2 = 2 ∧
    readReg (idle #v[1, 4, 2, 3, 5, 0, 0, 0]).sources 3 = 3 ∧
    (5 ≤ readReg (idle #v[1, 4, 2, 3, 5, 0, 0, 0]).sources 4 ∧
      readReg (idle #v[1, 4, 2, 3, 5, 0, 0, 0]).sources 4 % 2 = 1) := by decide

/-- The smallest candidate with its two witnesses 2 and 3. -/
theorem witness_MrRoundCompletes :
    readReg (idle #v[2, 3, 5, 0, 0, 0, 0, 0]).sources 2 % 2 = 1 ∧
    5 ≤ readReg (idle #v[2, 3, 5, 0, 0, 0, 0, 0]).sources 2 ∧
    2 ≤ readReg (idle #v[2, 3, 5, 0, 0, 0, 0, 0]).sources 0 ∧
    readReg (idle #v[2, 3, 5, 0, 0, 0, 0, 0]).sources 1 ≤
      readReg (idle #v[2, 3, 5, 0, 0, 0, 0, 0]).sources 2 - 2 := by decide

/-- N = 1; N = 2; a = N = 3; n = 4 and n = 3; n = 5 with witnesses 1 and 4. -/
theorem witness_ErrorsComeInCheckOrder :
    readReg (idle #v[1, 2, 3, 4, 5, 0, 0, 0]).sources 0 ≤ 1 ∧
    (1 < readReg (idle #v[1, 2, 3, 4, 5, 0, 0, 0]).sources 1 ∧
      readReg (idle #v[1, 2, 3, 4, 5, 0, 0, 0]).sources 1 % 2 = 0) ∧
    (1 < readReg (idle #v[1, 2, 3, 4, 5, 0, 0, 0]).sources 2 ∧
      readReg (idle #v[1, 2, 3, 4, 5, 0, 0, 0]).sources 2 % 2 = 1 ∧
      readReg (idle #v[1, 2, 3, 4, 5, 0, 0, 0]).sources 2 < 5) ∧
    (readReg (idle #v[1, 2, 3, 4, 5, 0, 0, 0]).sources 3 % 2 = 0) ∧
    (readReg (idle #v[1, 2, 3, 4, 5, 0, 0, 0]).sources 4 % 2 = 1 ∧
      5 ≤ readReg (idle #v[1, 2, 3, 4, 5, 0, 0, 0]).sources 4 ∧
      readReg (idle #v[1, 2, 3, 4, 5, 0, 0, 0]).sources 0 < 2 ∧
      readReg (idle #v[1, 2, 3, 4, 5, 0, 0, 0]).sources 4 - 2 <
        readReg (idle #v[1, 2, 3, 4, 5, 0, 0, 0]).sources 3) := by decide

theorem witness_ErrorCodesAreThoseOfTheTable :
    (idle abn).errcode = .noError ∧ ∃ t, exec (.montmul 3 2 1 2) (idle abn) = .next t ∧ t.errcode = .operandRange :=
  ⟨rfl, _, rfl, by decide⟩

theorem witness_ErrorWritesStatusAlone :
    ((idle abn).err = false ∧ ∃ t, exec (.modmul 3 0 1 7) (idle abn) = .next t ∧ t.err = true) ∧
    ((running 0#32 abn [.engine]).Completing ∧ (running 0#32 abn [.engine]).err = false ∧
      ∃ t, step (running 0#32 abn [.engine]) = .next t ∧ t.err = true) :=
  ⟨⟨rfl, _, rfl, by decide⟩, ⟨rfl, .inr ⟨[], rfl⟩⟩, rfl, _, rfl, by decide⟩

theorem witness_CommandsWriteAtMostTheirDestination :
    ∃ t, exec (.modmul 3 0 1 2) (idle abn) = .next t ∧ destOf (.modmul 3 0 1 2) ≠ some 0 ∧
      writesMrs (.modmul 3 0 1 2) = false := ⟨_, rfl, by decide⟩

theorem witness_SuccessWritesAllOfFlags :
    (idle abn).err = false ∧ (∃ t, exec (.modmul 3 0 1 2) (idle abn) = .next t ∧ t.err = false) ∧
    ∃ t, exec (.modmul 3 0 1 7) (idle abn) = .next t ∧ t.err = true :=
  ⟨rfl, ⟨_, rfl, by decide⟩, _, rfl, by decide⟩

/-- Two states that agree on the sources x0, x1, x2 and differ elsewhere. -/
theorem witness_ResultDependsOnSourcesAlone :
    (∀ k ∈ sourcesOf (.modmul 3 0 1 2),
      readReg (idle abn).sources k = readReg (idle #v[7, 11, 13, 99, 0, 0, 0, 5]).sources k) ∧
    (∃ t, exec (.modmul 3 0 1 2) (idle abn) = .next t ∧ t.err = false) ∧
    ∃ t, exec (.modmul 3 0 1 2) (idle #v[7, 11, 13, 99, 0, 0, 0, 5]) = .next t :=
  ⟨by decide, ⟨_, rfl, by decide⟩, _, rfl⟩

theorem witness_InterruptLevelLifecycle :
    (running 0x00210301#32 abn []).Completing ∧ (2#32 : Word)[1] = true ∧ (idle abn).busy = false ∧
    ((1#32 : Word)[0] = true ∧ (1#32 : Word)[1] = false) ∧
    (transact (.read 0x020 4) (finished abn [])).responses = .busError :: (finished abn []).responses ∧
    ∃ t, step (finished abn []) = .next t ∧ t.irq = true :=
  ⟨⟨rfl, .inl rfl⟩, by decide, rfl, by decide, by decide, _, rfl, rfl⟩

theorem witness_StepKeepsTheInvariant :
    (running 0x00210301#32 abn []).Inv ∧ ∃ t, step (running 0x00210301#32 abn []) = .next t :=
  ⟨running_inv [], _, rfl⟩

theorem witness_ResetHasTheInvariant : (⟨1, 0⟩ : Config).Legal ∧ (⟨128, 0x2000⟩ : Config).Legal := by decide

theorem witness_InvariantStatesAreSafe : (running 0x00210301#32 abn [.bus (.read 0x1000 4), .engine]).Inv :=
  running_inv _

theorem witness_EveryCommandEnds : (running 0x00210301#32 abn [.bus (.write 0x010 4 0#32)]).Inv := running_inv _

theorem witness_OnlyTheseEventsChangeRegisters :
    (∃ t, step (running 0x00210301#32 abn []) = .next t ∧ t.x ≠ (running 0x00210301#32 abn []).x) ∧
    ∃ t, step (finished abn [.bus (.write 0x1000 4 1#32)]) = .next t ∧ t.x ≠ abn :=
  ⟨⟨_, rfl, by decide⟩, _, rfl, by decide⟩

theorem witness_OnlyTheseEventsChangeStatusAndResults :
    (∃ t, step (finished abn [.bus (.write 0x010 4 0#32)]) = .next t ∧ t.busy = true) ∧
    (running 0x00210301#32 abn []).busy = true ∧
    (∃ t, step (running 0x00210301#32 abn []) = .next t ∧ t.busy = false ∧ t.done = true ∧ t.opcnt ≠ 0#32) ∧
    (∃ t, step (finished abn [.bus (.write 0x00C 4 2#32)]) = .next t ∧ t.done = false) ∧
    (∃ t, step (finished abn [.bus (.write 0x010 4 1#32)]) = .next t ∧ t.lastcmd ≠ (finished abn []).lastcmd) ∧
    ∃ t, step (finished abn [.bus (.write 0x008 4 0#32)]) = .next t ∧ t.irqEn ≠ (finished abn []).irqEn :=
  ⟨⟨_, rfl, rfl⟩, rfl, ⟨_, rfl, by decide⟩, ⟨_, rfl, rfl⟩, ⟨_, rfl, by decide⟩, _, rfl, by decide⟩

theorem witness_WorkIsBounded :
    (idle #v[2 ^ 32 - 1, 0, 0, 0, 0, 0, 0, 0]).Inv ∧
    1 < readReg (idle #v[2 ^ 32 - 1, 0, 0, 0, 0, 0, 0, 0]).sources 0 ∧
    (∃ t, exec (.modexp 1 2 3 0) (idle #v[2 ^ 32 - 1, 0, 0, 0, 0, 0, 0, 0]) = .next t) ∧
    (∃ t, exec (.mrRound 1 2) (running 0x00210301#32 abn []) = .next t) ∧
    (running 0x00210301#32 abn []).Inv ∧ readReg (running 0x00210301#32 abn []).sources 2 % 2 = 1 ∧
    5 ≤ readReg (running 0x00210301#32 abn []).sources 2 ∧ 2 ≤ readReg (running 0x00210301#32 abn []).sources 1 ∧
    readReg (running 0x00210301#32 abn []).sources 1 ≤ readReg (running 0x00210301#32 abn []).sources 2 - 2 ∧
    3 % 2 = 1 ∧ 2 ^ 2 * 3 = readReg (running 0x00210301#32 abn []).sources 2 - 1 :=
  ⟨idle_inv [], by decide, ⟨_, rfl⟩, ⟨_, rfl⟩, running_inv [], by decide⟩

/-- r1 = 3, r2 = 4, r3 = 5 with b in x1; the conversions in place have r1 = rb = 1 or r2 = r1 = 3. -/
theorem witness_MontgomeryDomainProduct :
    1 < readReg (idle abn).x 2 ∧ readReg (idle abn).x 2 % 2 = 1 ∧
    (3 : Reg) ≠ 2 ∧ (4 : Reg) ≠ 2 ∧ (5 : Reg) ≠ 2 ∧ (3 : Reg) ≠ 1 ∧ (4 : Reg) ≠ 3 ∧ (1 : Reg) ≠ 2 := by decide

theorem witness_GcdAndInverseLaws :
    1 < readReg (idle #v[17, 6, 9, 0, 0, 0, 0, 0]).sources 2 ∧ Nat.gcd 17 9 = 1 ∧ 1 < Nat.gcd 6 9 := by decide

theorem witness_PrimesPassEveryWitness :
    Nat.Prime (readReg (idle #v[2, 3, 5, 0, 0, 0, 0, 0]).sources 2) ∧
    5 ≤ readReg (idle #v[2, 3, 5, 0, 0, 0, 0, 0]).sources 2 ∧
    2 ≤ readReg (idle #v[2, 3, 5, 0, 0, 0, 0, 0]).sources 0 ∧
    readReg (idle #v[2, 3, 5, 0, 0, 0, 0, 0]).sources 1 ≤
      readReg (idle #v[2, 3, 5, 0, 0, 0, 0, 0]).sources 2 - 2 :=
  ⟨by change Nat.Prime 5; norm_num, by decide⟩

theorem witness_HostPrimalityProcedure :
    Nat.Prime 5 ∧ (∀ a ∈ [2, 3], 2 ≤ a ∧ a ≤ 5 - 2) ∧ ((1 : Nat) < 2 ∨ (4 ≤ 1 ∧ 1 % 2 = 0)) ∧
    ((4 : Nat) < 2 ∨ (4 ≤ 4 ∧ 4 % 2 = 0)) ∧ 5 ≤ 9 ∧ 9 % 2 = 1 ∧ (mrRoundRun 2 9).composite = true :=
  ⟨by norm_num, by decide⟩

/-- The toy key of 41_modexp.md R153's operations: p = 5, q = 11, e = 3, d = 27, m = 8. -/
theorem witness_RsaRoundTrip :
    Nat.Prime 5 ∧ Nat.Prime 11 ∧ (5 : Nat) ≠ 11 ∧
    readReg (idle #v[8, 3, 27, 55, 0, 0, 0, 0]).x 3 = 5 * 11 ∧
    readReg (idle #v[8, 3, 27, 55, 0, 0, 0, 0]).x 0 < 5 * 11 ∧
    readReg (idle #v[8, 3, 27, 55, 0, 0, 0, 0]).x 1 * readReg (idle #v[8, 3, 27, 55, 0, 0, 0, 0]).x 2 %
      ((5 - 1) * (11 - 1)) = 1 % ((5 - 1) * (11 - 1)) ∧ (4 : Reg) ≠ 2 ∧ (4 : Reg) ≠ 3 :=
  ⟨by norm_num, by norm_num, by decide⟩

theorem witness_WordSerialMultiplierRefinesMontmul :
    1 < readReg abn 2 ∧ readReg abn 2 % 2 = 1 ∧ readReg abn 2 < (⟨1, 0⟩ : Config).radix ∧
    readReg abn 0 < readReg abn 2 ∧ readReg abn 1 < readReg abn 2 := by decide

theorem witness_MontgomeryExponentiationRefinesModexp : 1 < 497 ∧ 497 % 2 = 1 := by decide

theorem witness_LoadWritesTheWholeRegister :
    ({ idle #v[2 ^ 32 - 1, 0, 0, 0, 0, 0, 0, 0] with inputs := hostLDX ⟨1, 0⟩ 0 5 } : State).Inv ∧
    (idle #v[2 ^ 32 - 1, 0, 0, 0, 0, 0, 0, 0]).busy = false ∧
    5 < (idle #v[2 ^ 32 - 1, 0, 0, 0, 0, 0, 0, 0]).cfg.radix ∧
    hostLDX ⟨1, 0⟩ 0 5 = hostLDX (idle #v[2 ^ 32 - 1, 0, 0, 0, 0, 0, 0, 0]).cfg 0 5 :=
  ⟨idle_inv _, rfl, by decide, rfl⟩

theorem witness_StoreReadsTheWholeRegister :
    ({ idle #v[2 ^ 32 - 1, 0, 0, 0, 0, 0, 0, 0] with inputs := hostSTX ⟨1, 0⟩ 0 } : State).Inv ∧
    (idle #v[2 ^ 32 - 1, 0, 0, 0, 0, 0, 0, 0]).busy = false ∧
    hostSTX ⟨1, 0⟩ 0 = hostSTX (idle #v[2 ^ 32 - 1, 0, 0, 0, 0, 0, 0, 0]).cfg 0 := ⟨idle_inv _, rfl, rfl⟩

end Sys2Proof.Machine.Tests
end

section
/-! PROOFS of the family 00_scope.md: where BASE places the block, and the accesses that do not reach it. -/

namespace Sys2Proof.Machine

/-- Every offset below 0x2000 from BASE is in the block. -/
theorem blockSelects_base_add {c : Config} {off : Nat} (h : off < 0x2000) :
    blockSelects c (c.base + off) = true := by
  rw [blockSelects_iff]
  omega

theorem blockSelects_eq_false_iff (c : Config) (addr : Nat) :
    blockSelects c addr = false ↔ addr < c.base ∨ c.base + 0x2000 ≤ addr := by
  rw [← Bool.not_eq_true, blockSelects_iff]
  omega

/-- An access outside the block brings no event. -/
theorem platformAccess_read_outside {c : Config} {addr : Nat} (width : Nat) (h : blockSelects c addr = false) :
    platformAccess c (.read addr width) = [] := by simp [platformAccess, h]

theorem platformAccess_write_outside {c : Config} {addr : Nat} (width : Nat) (v : Word)
    (h : blockSelects c addr = false) : platformAccess c (.write addr width v) = [] := by simp [platformAccess, h]

/-- A legal BASE is a multiple of 8 KiB, so the address and its offset have the same alignment. -/
theorem base_add_mod_four {c : Config} (h : c.Legal) (off : Nat) : (c.base + off) % 4 = off % 4 := by
  have hbase : c.base % 0x2000 = 0 := h.2
  omega

theorem accessOk_outside {addr : Nat} (width : Nat) (h : 0x2000 ≤ addr) : accessOk addr width = false := by
  rw [← Bool.not_eq_true, accessOk_iff]
  omega

/-- An aligned word offset from 0x2000 up is not the RMAU's (20_memory.md R61, log 7). -/
theorem busRead_outside (s : State) {addr : Nat} (h : 0x2000 ≤ addr) (ha : addr % 4 = 0) :
    busRead s addr 4 = .notAddressed := by simp [busRead, accessOk_outside 4 h, ha]

theorem busWrite_outside (s : State) {addr : Nat} (v : Word) (h : 0x2000 ≤ addr) (ha : addr % 4 = 0) :
    busWrite s addr 4 v = (.notAddressed, s) := by simp [busWrite, accessOk_outside 4 h, ha]

/-- Settles O26: an address in the block is BASE plus its offset, and `accessOk` refuses every offset from 0x2000 up
before either transaction looks at the state. -/
theorem outsideTheBlockNothingChanges : Obligations.OutsideTheBlockNothingChanges := by
  refine ⟨fun c addr width v => ⟨?inside, ?outside⟩, ?beyond⟩
  case inside =>
    rintro off hoff rfl
    have hsel : blockSelects c (c.base + off) = true := blockSelects_base_add hoff
    refine ⟨?_, ?_, fun hlegal => by rw [base_add_mod_four hlegal]⟩
    · rw [platformAccess_read width hsel, Nat.add_sub_cancel_left]
    · rw [platformAccess_write width v hsel, Nat.add_sub_cancel_left]
  case outside =>
    intro hout
    have hsel : blockSelects c addr = false := (blockSelects_eq_false_iff c addr).mpr hout
    exact ⟨platformAccess_read_outside width hsel, platformAccess_write_outside width v hsel⟩
  case beyond =>
    intro s addr v haddr halign
    constructor
    · rw [transact_read, busRead_outside s haddr halign]
      rfl
    · rw [transact_write, busWrite_outside s v haddr halign]
      rfl

end Sys2Proof.Machine
end

section
/-! PROOFS of the family 10_state.md, first part: what the shared operations do (accesses to the control and status
registers, window accesses, completions) and the causes of one step, each said once. -/

namespace Sys2Proof.Machine

/-! ### Control and status registers -/

/-- A control or status register is read whether the block is busy or idle (20_memory.md R66). -/
theorem busRead_csr {s : State} {addr : Nat} {v : Word} (h4 : addr % 4 = 0) (hlt : addr < 0x1000)
    (hv : csrRead s addr = some v) : busRead s addr 4 = .data v := by
  have hok : accessOk addr 4 = true := (accessOk_iff _ _).2 ⟨rfl, h4, by omega⟩
  have hwin : inWindow addr = false := by rw [← Bool.not_eq_true, inWindow_iff]; omega
  simp [busRead, h4, hok, refusedBusy, hwin, hv]

/-- A write to a read-only register is answered `ok` and ignored (10_state.md R37). -/
theorem busWrite_readOnly (s : State) {addr : Nat} (v : Word)
    (h : addr = 0x000 ∨ addr = 0x004 ∨ addr = 0x014 ∨ addr = 0x018 ∨ addr = 0x01C) :
    busWrite s addr 4 v = (.ok, s) := by
  rcases h with rfl | rfl | rfl | rfl | rfl <;> simp [busWrite, accessOk, refusedBusy, inWindow, csrWrite]

theorem paramWord_toNat {c : Config} (h : c.Legal) : (paramWord c).toNat = c.limbs + 8 * 2 ^ 8 := by
  obtain ⟨⟨-, hmax⟩, -⟩ := h
  have hlimbs : c.limbs % 2 ^ 8 = c.limbs := Nat.mod_eq_of_lt (by omega)
  simp only [paramWord, BitVec.toNat_append, BitVec.toNat_ofNat, hlimbs]
  rw [← Nat.shiftLeft_add_eq_or_of_lt (by omega : c.limbs < 2 ^ 8)]
  simp [Nat.shiftLeft_eq, Nat.add_comm]

theorem ctrlWord_toNat (s : State) : (ctrlWord s).toNat = s.irqEn.toNat := by
  unfold ctrlWord
  cases s.irqEn <;> rfl

theorem statusWord_toNat (s : State) : (statusWord s).toNat =
    s.busy.toNat + 2 * s.done.toNat + 4 * s.err.toNat + 2 ^ 8 * s.errcode.code.toNat := by
  unfold statusWord
  cases s.busy <;> cases s.done <;> cases s.err <;> cases s.errcode <;> rfl

theorem ctrlWrite_of_srst {v : Word} (h : v[1] = true) (s : State) : ctrlWrite v s = resetBlock s := by
  simp [ctrlWrite, h]

theorem ctrlWrite_of_not_srst {v : Word} (h : v[1] = false) (s : State) :
    ctrlWrite v s = { s with irqEn := v[0] } := by
  simp [ctrlWrite, h]

/-- CTRL has two defined bits (10_state.md R29, R37). -/
theorem ctrlWrite_congr {v u : Word} (h0 : v[0] = u[0]) (h1 : v[1] = u[1]) (s : State) :
    ctrlWrite v s = ctrlWrite u s := by
  simp [ctrlWrite, h0, h1]

theorem statusWrite_eq (v : Word) (s : State) : statusWrite v s = { s with done := s.done && !v[1] } := by
  unfold statusWrite
  cases v[1] <;> simp

/-! ### Window accesses -/

theorem windowRead_of_lt {s : State} (i : Reg) {j : Nat} (h : j < s.cfg.limbs) :
    windowRead s i j = BitVec.ofNat 32 (limb (readReg s.x i) j) := if_pos h

theorem windowRead_of_le {s : State} (i : Reg) {j : Nat} (h : s.cfg.limbs ≤ j) : windowRead s i j = 0#32 :=
  if_neg (by omega)

theorem windowWrite_of_lt {s : State} (i : Reg) {j : Nat} (v : Word) (h : j < s.cfg.limbs) :
    windowWrite i j v s = { s with x := writeReg s.x i (setLimb (readReg s.x i) j v) } := if_pos h

theorem windowWrite_of_le {s : State} (i : Reg) {j : Nat} (v : Word) (h : s.cfg.limbs ≤ j) :
    windowWrite i j v s = s := if_neg (by omega)

theorem windowRead_congr {s t : State} (hc : t.cfg = s.cfg) {k : Reg} (hk : readReg t.x k = readReg s.x k)
    (j : Nat) : windowRead t k j = windowRead s k j := by
  unfold windowRead
  rw [hc, hk]

/-- A limb reads back what was written to it. -/
theorem windowRead_windowWrite_same {s : State} (i : Reg) {j : Nat} (v : Word) (h : j < s.cfg.limbs) :
    windowRead (windowWrite i j v s) i j = v := by
  rw [windowRead_of_lt i (by simpa using h), windowWrite_of_lt i v h]
  simp

/-- A limb other than the one written reads as before. -/
theorem windowRead_windowWrite_of_ne {s : State} {i k : Reg} {j l : Nat} (v : Word) (h : (k, l) ≠ (i, j)) :
    windowRead (windowWrite i j v s) k l = windowRead s k l := by
  rcases Nat.lt_or_ge j s.cfg.limbs with hj | hj
  · rw [windowWrite_of_lt i v hj]
    by_cases hk : k = i
    · subst hk
      have hl : l ≠ j := fun e => h (by rw [e])
      simp [windowRead, limb_setLimb_of_ne _ v hl]
    · exact windowRead_congr (by rfl) (by exact readReg_writeReg_of_ne _ _ hk) l
  · rw [windowWrite_of_le i v hj]

/-! ### Completions -/

@[simp] theorem complete_cfg (r : Result) (s : State) : (complete r s).cfg = s.cfg := by cases r <;> rfl
@[simp] theorem complete_irqEn (r : Result) (s : State) : (complete r s).irqEn = s.irqEn := by cases r <;> rfl
@[simp] theorem complete_busy (r : Result) (s : State) : (complete r s).busy = false := by cases r <;> rfl
@[simp] theorem complete_done (r : Result) (s : State) : (complete r s).done = true := by cases r <;> rfl
@[simp] theorem complete_lastcmd (r : Result) (s : State) : (complete r s).lastcmd = s.lastcmd := by cases r <;> rfl
@[simp] theorem complete_inflight (r : Result) (s : State) : (complete r s).inflight = none := by cases r <;> rfl
@[simp] theorem complete_inputs (r : Result) (s : State) : (complete r s).inputs = s.inputs := by cases r <;> rfl
@[simp] theorem complete_responses (r : Result) (s : State) : (complete r s).responses = s.responses := by
  cases r <;> rfl

/-- A success writes the register that RD names and no other (10_state.md R23). -/
theorem OkShape.readReg_of_ne {i : Instr} {d : Option (Reg × Nat)} {f o : Word} {m : Option Word}
    (h : OkShape i d f m) (s : State) {k : Reg} (hk : destOf i ≠ some k) :
    readReg (completeOk d f m o s).x k = readReg s.x k := by
  rw [← h.dest] at hk
  cases d with
  | none => rfl
  | some p => exact readReg_writeReg_of_ne _ _ (fun e => hk (by rw [e]; rfl))

/-- The destination of a success holds its value, whatever state the success completes (30_encoding.md R103). -/
theorem OkShape.readReg_dest {i : Instr} {d : Option (Reg × Nat)} {f o : Word} {m : Option Word}
    (h : OkShape i d f m) (s s' : State) {k : Reg} (hk : destOf i = some k) :
    readReg (completeOk d f m o s).x k = readReg (completeOk d f m o s').x k := by
  rw [← h.dest] at hk
  cases d with
  | none => cases hk
  | some p => cases hk; simp

/-- A success that does not write MR_S leaves it (10_state.md R35). -/
theorem OkShape.mrs_kept {i : Instr} {d : Option (Reg × Nat)} {f o : Word} {m : Option Word}
    (h : OkShape i d f m) (s : State) (hw : writesMrs i = false) : (completeOk d f m o s).mrs = s.mrs := by
  have hm : m = none := by simpa [hw] using h.mrs
  rw [hm]
  rfl

/-- The MR_S a success writes is the same whatever state the success completes. -/
theorem OkShape.mrs_written {i : Instr} {d : Option (Reg × Nat)} {f o : Word} {m : Option Word}
    (h : OkShape i d f m) (s s' : State) (hw : writesMrs i = true) :
    (completeOk d f m o s).mrs = (completeOk d f m o s').mrs := by
  obtain ⟨w, rfl⟩ := Option.isSome_iff_exists.1 (h.mrs.trans hw)
  rfl

/-- The FLAGS values a command writes when it succeeds (10_state.md R34). -/
def successFlags : Instr → List Word
  | .modinv _ _ _ => [0x00#32, 0x02#32]
  | .mrPre _ _ => [0x00#32, 0x11#32, 0x20#32]
  | .mrRound _ _ => [0x00#32, 0x01#32]
  | .modmul _ _ _ _ | .montmul _ _ _ _ | .montTo _ _ _ | .montFrom _ _ _ | .modexp _ _ _ _ | .gcd _ _ _ => [0x00#32]

theorem resultOf_ok_flags {c : Config} {x : Regs} {i : Instr} {d f m o} (h : resultOf c x i = .ok d f m o) :
    f ∈ successFlags i := by
  cases i with
  | modmul rd ra rb rm =>
    obtain ⟨-, h⟩ := withModulus_eq_ok h
    cases h; exact List.mem_singleton.2 flagsClear_eq
  | montmul rd ra rb rm =>
    obtain ⟨-, -, h⟩ := withOddModulus_eq_ok h
    split at h <;> cases h
    exact List.mem_singleton.2 flagsClear_eq
  | montTo rd ra rm =>
    obtain ⟨-, -, h⟩ := withOddModulus_eq_ok h
    cases h; exact List.mem_singleton.2 flagsClear_eq
  | montFrom rd ra rm =>
    obtain ⟨-, -, h⟩ := withOddModulus_eq_ok h
    cases h; exact List.mem_singleton.2 flagsClear_eq
  | modexp rd ra rb rm =>
    obtain ⟨-, h⟩ := withModulus_eq_ok h
    cases h; exact List.mem_singleton.2 flagsClear_eq
  | gcd rd ra rb => cases h; exact List.mem_singleton.2 flagsClear_eq
  | modinv rd ra rm =>
    obtain ⟨-, h⟩ := withModulus_eq_ok h
    split at h <;> cases h <;> simp [successFlags, flagsNoInverse_eq, flagsClear_eq]
  | mrPre rd rm =>
    simp only [resultOf, mrPreResult] at h
    split at h <;> cases h <;>
      simp [successFlags, flagsOfClass_test, flagsOfClass_prime, flagsOfClass_notPrime]
  | mrRound ra rm =>
    simp only [resultOf, mrRoundResult] at h
    split at h
    · cases h
    · split at h <;> cases h
      rw [flagsOfRound_eq]
      split <;> simp [successFlags]

/-- A result reads the command's source registers and no other (30_encoding.md R104). -/
theorem resultOf_congr {x y : Regs} {i : Instr} (h : ∀ k ∈ sourcesOf i, readReg x k = readReg y k) (c : Config) :
    resultOf c x i = resultOf c y i := by
  cases i <;>
    simp only [sourcesOf, List.forall_mem_cons, List.not_mem_nil, false_implies, implies_true, and_true] at h
  case modmul => simp only [resultOf, modmulResult, h]
  case montmul => simp only [resultOf, montmulResult, h]
  case montTo => simp only [resultOf, montToResult, h]
  case montFrom => simp only [resultOf, montFromResult, h]
  case modexp => simp only [resultOf, modexpResult, h]
  case gcd => simp only [resultOf, gcdResult, h]
  case modinv => simp only [resultOf, modinvResult, h]
  case mrPre => simp only [resultOf, mrPreResult, h]
  case mrRound => simp only [resultOf, mrRoundResult, h]

/-! ### The causes of a step -/

/-- Every cause of a step, with the state the step leaves: `StepEffect` in the words of the events that
10_state.md R29 to R32 name. -/
inductive StepCause (s : State) : State → Prop where
  | completion (c : Command) : s.inflight = some c → s.Completing →
      StepCause s (complete (execute s.cfg c.word c.snap) { s with inputs := s.inputs.tail })
  | reset (rs : List Response) : s.Resetting →
      StepCause s (resetBlock { s with inputs := s.inputs.tail, responses := rs })
  | issue (v : Word) : s.Issuing → StepCause s (respond .ok (issue v { s with inputs := s.inputs.tail }))
  /-- A STATUS write. -/
  | status (v : Word) : (∃ es, s.inputs = .bus (.write 0x00C 4 v) :: es) →
      StepCause s (respond .ok (statusWrite v { s with inputs := s.inputs.tail }))
  /-- A CTRL write with SRST = 0. -/
  | ctrl (v : Word) : (∃ es, s.inputs = .bus (.write 0x008 4 v) :: es) →
      StepCause s (respond .ok { s with irqEn := v[0], inputs := s.inputs.tail })
  /-- A window write while idle. -/
  | window (i : Reg) (j : Nat) (v : Word) : s.busy = false →
      StepCause s (respond .ok (windowWrite i j v { s with inputs := s.inputs.tail }))
  /-- A transaction without effect, or the engine idle. -/
  | quiet (rs : List Response) : StepCause s { s with inputs := s.inputs.tail, responses := rs }

theorem write_cause {s : State} {addr width : Nat} {v : Word}
    (h : s.inputs = .bus (.write addr width v) :: s.inputs.tail) :
    StepCause s (transact (.write addr width v) { s with inputs := s.inputs.tail }) := by
  rw [transact_write]
  have heff := busWrite_effect { s with inputs := s.inputs.tail } addr width v
  generalize busWrite { s with inputs := s.inputs.tail } addr width v = p at heff
  cases heff with
  | refused => exact .quiet _
  | outside => exact .quiet _
  | ignored => exact .quiet _
  | window i j _ hb => exact .window i j v hb
  | status hw ha => subst hw ha; exact .status v ⟨_, h⟩
  | cmd hw ha hb => subst hw ha; exact .issue v ⟨hb, _, v, h⟩
  | ctrl hw ha =>
    subst hw ha
    cases hv : v[1] with
    | true => rw [ctrlWrite_of_srst hv]; exact .reset (.ok :: s.responses) (.inr ⟨_, v, h, hv⟩)
    | false => rw [ctrlWrite_of_not_srst hv]; exact .ctrl v ⟨_, h⟩

theorem step_cause {s t : State} (h : step s = .next t) : StepCause s t := by
  cases step_effect_of_eq h with
  | complete c hc hin => exact .completion c hc ⟨by rw [hc]; rfl, hin.imp_right fun e => ⟨_, e⟩⟩
  | idle => exact .quiet s.responses
  | rst hin => exact .reset s.responses (.inl ⟨_, hin⟩)
  | bus txn hin =>
    cases txn with
    | read addr width => exact .quiet _
    | write addr width v => exact write_cause hin

/-- A step at an engine event, or with no event left, completes the command in flight (30_encoding.md R103, log 2). -/
theorem step_of_completing {s : State} (h : s.Completing) :
    ∃ r, step s = .next (complete r { s with inputs := s.inputs.tail }) := by
  obtain ⟨hfl, hin⟩ := h
  obtain ⟨t, ht, heff⟩ := step_effect s
  cases heff with
  | complete c => exact ⟨_, ht⟩
  | idle hnone => rw [hnone] at hfl; cases hfl
  | bus _ hbus => rw [hbus] at hin; simp at hin
  | rst hrst => rw [hrst] at hin; simp at hin

end Sys2Proof.Machine
end

section
/-! PROOFS of the family 10_state.md, second part: every cause of a step keeps the invariant. -/

namespace Sys2Proof.Machine

/-- The invariant says nothing of IRQ_EN, nor of the host's side of the interface. -/
theorem State.Inv.frame {s : State} (h : s.Inv) (irqEn : Bool) (inputs : List Event) (responses : List Response) :
    ({ s with irqEn := irqEn, inputs := inputs, responses := responses } : State).Inv :=
  ⟨h.legal, h.regs, h.busy_iff, h.busy_quiet, h.err_iff, h.snap, h.word, h.flags, h.mrs, h.opcnt⟩

theorem State.Inv.idle {s : State} (h : s.Inv) (hb : s.busy = false) : s.inflight = none := by
  have hsome := h.busy_iff
  rw [hb] at hsome
  simpa using hsome.symm

theorem State.Inv.resetBlock {s : State} (h : s.Inv) : (resetBlock s).Inv where
  legal := h.legal
  regs k := by
    rw [resetBlock_x, readReg_zero]
    exact Nat.two_pow_pos _
  busy_iff := rfl
  busy_quiet hb := by cases hb
  err_iff := by simp
  snap c hc := by cases hc
  word c hc := by cases hc
  flags := by simp
  mrs := by simpa using (width_lt h.legal).1
  opcnt := by simp

theorem State.Inv.issue {s : State} (h : s.Inv) (v : Word) : (issue v s).Inv where
  legal := h.legal
  regs := h.regs
  busy_iff := rfl
  busy_quiet _ := ⟨rfl, rfl⟩
  err_iff := by simp
  snap c hc := by cases hc; rfl
  word c hc := by cases hc; rfl
  flags := h.flags
  mrs := h.mrs
  opcnt := h.opcnt

theorem State.Inv.statusWrite {s : State} (h : s.Inv) (v : Word) : (statusWrite v s).Inv where
  legal := by simpa using h.legal
  regs := by simpa using h.regs
  busy_iff := by simpa using h.busy_iff
  busy_quiet hb := by
    obtain ⟨hd, he⟩ := h.busy_quiet (by simpa using hb)
    simp [hd, he]
  err_iff := by simpa using h.err_iff
  snap := by simpa using h.snap
  word := by simpa using h.word
  flags := by simpa using h.flags
  mrs := by simpa using h.mrs
  opcnt := by simpa using h.opcnt

/-- A window write while idle: a register with one limb replaced stays below 2^W, and no snapshot is held. -/
theorem State.Inv.windowWrite {s : State} (h : s.Inv) (hb : s.busy = false) (i : Reg) (j : Nat) (v : Word) :
    (windowWrite i j v s).Inv := by
  rcases Nat.lt_or_ge j s.cfg.limbs with hj | hj
  · rw [windowWrite_of_lt i v hj]
    have hnone := h.idle hb
    refine { h with regs := fun k => ?_, snap := fun c hc => ?_ }
    · rw [readReg_writeReg]
      split
      · exact setLimb_lt v hj (h.regs i)
      · exact h.regs k
    · rw [hnone] at hc
      cases hc
  · rw [windowWrite_of_le i v hj]
    exact h

theorem execute_err_ne {c : Config} {w : Word} {x : Regs} {code : ErrCode} (h : execute c w x = .err code) :
    code ≠ .noError := by
  unfold execute at h
  split at h
  · exact resultOf_err_ne h
  · cases h; decide

/-- A success comes of a word that decodes. -/
theorem execute_ok {c : Config} {w : Word} {x : Regs} {d f m o} (h : execute c w x = .ok d f m o) :
    ∃ i, resultOf c x i = .ok d f m o := by
  unfold execute at h
  split at h
  · exact ⟨_, h⟩
  · cases h

/-- An error completion writes STATUS alone, and its code is not NO_ERROR (60_exceptions.md R223). -/
theorem State.Inv.raiseError {s : State} (h : s.Inv) {code : ErrCode} (hc : code ≠ .noError) :
    (raiseError code s).Inv where
  legal := h.legal
  regs := h.regs
  busy_iff := rfl
  busy_quiet hb := by cases hb
  err_iff := by simp [hc]
  snap c hc := by cases hc
  word c hc := by cases hc
  flags := h.flags
  mrs := h.mrs
  opcnt := h.opcnt

/-- A success of the shape and the bounds of its rule keeps the invariant; ERR and ERRCODE stay. -/
theorem State.Inv.completeOk {s : State} (h : s.Inv) {i : Instr} {d : Option (Reg × Nat)} {f o : Word}
    {m : Option Word} (hshape : OkShape i d f m) (hbounds : OkBounds s.cfg d m o) : (completeOk d f m o s).Inv where
  legal := h.legal
  regs k := by
    cases d with
    | none => exact h.regs k
    | some p =>
      rw [completeOk_x, completeOk_cfg, readReg_writeReg]
      split
      · exact hbounds.value p.1 p.2 rfl
      · exact h.regs k
  busy_iff := rfl
  busy_quiet hb := by cases hb
  err_iff := h.err_iff
  snap c hc := by cases hc
  word c hc := by cases hc
  flags := hshape.flags
  mrs := by
    cases m with
    | none => exact h.mrs
    | some w => exact hbounds.mrs w rfl
  opcnt := hbounds.opcnt

/-- Completing the command in flight: its snapshot is the registers, so the results are within the bounds. -/
theorem State.Inv.complete {s : State} (h : s.Inv) {c : Command} (hc : s.inflight = some c) :
    (complete (execute s.cfg c.word c.snap) s).Inv := by
  rw [h.snap c hc]
  cases hr : execute s.cfg c.word s.x with
  | err code => exact h.raiseError (execute_err_ne hr)
  | ok d f m o =>
    obtain ⟨i, hi⟩ := execute_ok hr
    exact h.completeOk (resultOf_ok_shape hi) (resultOf_ok_bounds h.legal h.regs hi)

/-- Settles O45: each cause of a step keeps the invariant. -/
theorem stepKeepsTheInvariant : Obligations.StepKeepsTheInvariant := by
  intro s t h hstep
  have hnext : ({ s with inputs := s.inputs.tail } : State).Inv := h.frame s.irqEn _ s.responses
  cases step_cause hstep with
  | completion c hc => exact hnext.complete hc
  | reset rs => exact (h.frame s.irqEn _ rs).resetBlock
  | issue v => exact (hnext.issue v).frame _ _ _
  | status v => exact (hnext.statusWrite v).frame _ _ _
  | ctrl v => exact h.frame _ _ _
  | window i j v hb => exact (hnext.windowWrite hb i j v).frame _ _ _
  | quiet rs => exact h.frame s.irqEn _ rs

end Sys2Proof.Machine
end

section
/-! PROOFS of the family 10_state.md, third part: the registers and the window as the host reads and writes them. -/

namespace Sys2Proof.Machine

/-- Settles O18: each register by its offset, PARAM, CTRL and STATUS as sums of their fields. -/
theorem controlAndStatusReads : Obligations.ControlAndStatusReads := fun s =>
  ⟨busRead_csr (by decide) (by decide) rfl,
    ⟨_, busRead_csr (by decide) (by decide) rfl, paramWord_toNat⟩,
    ⟨_, busRead_csr (by decide) (by decide) rfl, ctrlWord_toNat s⟩,
    ⟨_, busRead_status s, statusWord_toNat s⟩,
    busRead_csr (by decide) (by decide) rfl, busRead_csr (by decide) (by decide) rfl,
    busRead_csr (by decide) (by decide) rfl, busRead_csr (by decide) (by decide) rfl⟩

/-- Settles O19: CTRL and STATUS writes look at their defined bits alone. -/
theorem readOnlyWritesAreIgnored : Obligations.ReadOnlyWritesAreIgnored := by
  refine fun s v u => ⟨fun addr haddr => ?_, fun h0 h1 => ?_, fun h1 => ?_⟩
  · rw [transact_write, busWrite_readOnly s v haddr]
    rfl
  · rw [transact_write, transact_write, busWrite_ctrl, busWrite_ctrl, ctrlWrite_congr h0 h1]
  · rw [transact_write, transact_write, busWrite_status, busWrite_status, statusWrite_eq, statusWrite_eq, h1]

/-- Settles O21: with SRST = 0 the write is `ctrlWrite_of_not_srst`, whatever BUSY is. -/
theorem ctrlWriteSetsIrqEnable : Obligations.CtrlWriteSetsIrqEnable := by
  intro s v hv
  rw [transact_write, busWrite_ctrl, ctrlWrite_of_not_srst hv]
  rfl

/-- Settles O20: a STATUS write touches DONE alone, which is 0 already while busy; of the causes of a step, only a
completion, an issue and a reset write ERR and ERRCODE. -/
theorem statusWriteClearsDone : Obligations.StatusWriteClearsDone := by
  intro s v
  have hwrite : transact (.write 0x00C 4 v) s =
      { s with done := s.done && !v[1], responses := .ok :: s.responses } := by
    rw [transact_write, busWrite_status, statusWrite_eq]
    rfl
  refine ⟨hwrite, fun hinv hb => ?_, fun t hstep hchange => ?_⟩
  · obtain ⟨hd, -⟩ := hinv.busy_quiet hb
    rw [hwrite, hd, Bool.false_and, ← hd]
  · cases step_cause hstep with
    | completion _ _ hc => exact .inl hc
    | issue _ hi => exact .inr (.inl hi)
    | reset _ hr => exact .inr (.inr hr)
    | status => simp at hchange
    | ctrl => simp at hchange
    | window => simp at hchange
    | quiet => simp at hchange

/-- Settles O23: the access is a window access of limb j, which L splits in two. -/
theorem windowAccess : Obligations.WindowAccess := by
  intro s i j v hb hj
  obtain ⟨hlo, hhi, -⟩ := limbOffset_bounds i hj
  rw [transact_write, busRead_window s i hb hj, busWrite_window s i v hb hj]
  refine ⟨⟨hlo, by omega, rfl⟩, fun hlt => ?_, fun hle => ?_⟩
  · rw [windowRead_of_lt i hlt, windowWrite_of_lt i v hlt]
    exact ⟨rfl, rfl⟩
  · rw [windowRead_of_le i hle, windowWrite_of_le i v hle]
    exact ⟨rfl, rfl⟩

/-- Settles O24: the block is idle after the write too, so each read is a window read of the written state. -/
theorem windowReadAfterWrite : Obligations.WindowReadAfterWrite := by
  intro s i k j l v hb hj hj127 hl127
  have hb' : (windowWrite i j v s).busy = false := by rw [windowWrite_busy, hb]
  rw [transact_write, busWrite_window s i v hb hj127, busRead_respond, busRead_respond,
    busRead_window _ i hb' hj127, busRead_window _ k hb' hl127, busRead_window s k hb hl127]
  exact ⟨by rw [windowRead_windowWrite_same i v hj], fun hne => by rw [windowRead_windowWrite_of_ne v hne]⟩

end Sys2Proof.Machine
end

section
/-! PROOFS of the family 10_state.md, fourth part: what a command writes, and which events change the state. -/

namespace Sys2Proof.Machine

/-- Settles O41: an error writes STATUS alone, and a success has the shape of its command. -/
theorem commandsWriteAtMostTheirDestination : Obligations.CommandsWriteAtMostTheirDestination := by
  intro i s t hexec
  obtain rfl := exec_next hexec
  have hregs : ∀ k, destOf i ≠ some k →
      readReg (complete (resultOf s.cfg s.sources i) s).x k = readReg s.x k := by
    intro k hk
    cases hr : resultOf s.cfg s.sources i with
    | err code => rfl
    | ok d f m o => exact (resultOf_ok_shape hr).readReg_of_ne s hk
  refine ⟨complete_cfg _ s, complete_irqEn _ s, complete_lastcmd _ s, complete_inputs _ s, complete_responses _ s,
    complete_busy _ s, complete_done _ s, complete_inflight _ s,
    fun k hk => ⟨hregs k hk, windowRead_congr (complete_cfg _ s) (hregs k hk)⟩, ?_⟩
  cases hr : resultOf s.cfg s.sources i with
  | err code => exact ⟨fun _ => rfl, .inr rfl⟩
  | ok d f m o => exact ⟨(resultOf_ok_shape hr).mrs_kept s, .inl rfl⟩

/-- Settles O42: an error keeps FLAGS, a success writes a value of `successFlags`. -/
theorem successWritesAllOfFlags : Obligations.SuccessWritesAllOfFlags := by
  intro i s t herr hexec
  obtain rfl := exec_next hexec
  cases hr : resultOf s.cfg s.sources i with
  | err code => exact ⟨fun _ => rfl, fun h => by cases h⟩
  | ok d f m o =>
    refine ⟨fun h => ?_, fun _ => ?_⟩
    · rw [show (complete (.ok d f m o) s).err = s.err from rfl, herr] at h
      cases h
    · have hf : (complete (.ok d f m o) s).flags ∈ successFlags i := resultOf_ok_flags hr
      cases i <;> simpa [successFlags] using hf

/-- Settles O43: the two results are one, and a completion writes what its result holds. -/
theorem resultDependsOnSourcesAlone : Obligations.ResultDependsOnSourcesAlone := by
  intro i s s' t t' hcfg herr hcode hsrc hexec hexec'
  obtain rfl := exec_next hexec
  obtain rfl := exec_next hexec'
  rw [← hcfg, ← resultOf_congr hsrc]
  cases hr : resultOf s.cfg s.sources i with
  | err code => exact ⟨rfl, rfl, fun _ h => by cases h⟩
  | ok d f m o =>
    have hshape := resultOf_ok_shape hr
    exact ⟨herr, hcode, fun _ _ =>
      ⟨rfl, rfl, hshape.mrs_written s s', fun k hk => hshape.readReg_dest s s' hk⟩⟩

/-- A transaction answered `bus_error` leaves all but the response log (60_exceptions.md R224). -/
theorem transact_of_busError {s : State} {t : Txn} (h : (transact t s).responses = .busError :: s.responses) :
    transact t s = respond .busError s := by
  cases t with
  | read addr width =>
    rw [transact_read, respond_responses, List.cons.injEq] at h
    rw [transact_read, h.1]
  | write addr width v =>
    rw [transact_write] at h ⊢
    have heff := busWrite_effect s addr width v
    generalize busWrite s addr width v = p at heff h ⊢
    cases heff with
    | refused => rfl
    | outside => simp at h
    | window => simp at h
    | ctrl => simp at h
    | status => simp at h
    | cmd => simp at h
    | ignored => simp at h

/-- Settles O44: `irq` is DONE and IRQ_EN, so each clause is what its event writes to these two. -/
theorem interruptLevelLifecycle : Obligations.InterruptLevelLifecycle := by
  refine ⟨rfl, fun s => by simp [State.irq], fun s hc => ?_, fun s v hv => ?_, fun s v hb => ?_, fun s => rfl,
    fun s v h0 h1 => ?_, fun s t ht => ?_, fun s t hstep hirq => ?_⟩
  · obtain ⟨r, hr⟩ := step_of_completing hc
    exact ⟨_, hr, by simp, by simp [State.irq]⟩
  · rw [transact_write, busWrite_status]
    simp [State.irq, hv]
  · rw [transact_write, busWrite_cmd v hb]
    simp [State.irq]
  · rw [transact_write, busWrite_ctrl, ctrlWrite_of_not_srst h1]
    simp [State.irq, h0]
  · rw [transact_of_busError ht]
    rfl
  · have hdone : t.done = true := (Bool.and_eq_true_iff.1 hirq).1
    cases step_cause hstep with
    | completion _ _ hc => exact .inr hc
    | reset => simp at hdone
    | issue => simp at hdone
    | status =>
      rw [respond_done, statusWrite_done, Bool.and_eq_true] at hdone
      exact .inl hdone.1
    | ctrl => exact .inl hdone
    | window => exact .inl (by simpa using hdone)
    | quiet => exact .inl hdone

/-- Settles O50: for each cause of a step, what it writes among these fields. -/
theorem onlyTheseEventsChangeStatusAndResults : Obligations.OnlyTheseEventsChangeStatusAndResults := by
  intro s t hstep
  cases step_cause hstep with
  | completion _ _ hc => simp [hc]
  | reset _ hr => simp [hr]
  | issue _ hi => simp [hi]
  | status v hin =>
    have hclear : v[1] = true → ∃ es v, s.inputs = .bus (.write 0x00C 4 v) :: es ∧ v[1] = true := fun hv =>
      hin.elim fun es hes => ⟨es, v, hes, hv⟩
    simpa +contextual using fun _ hv => .inr (.inr (hclear hv))
  | ctrl v hin =>
    have hctrl : ∃ es v, s.inputs = .bus (.write 0x008 4 v) :: es := hin.elim fun es hes => ⟨es, v, hes⟩
    simpa +contextual using fun _ => .inr hctrl
  | window => simp +contextual
  | quiet => simp +contextual

end Sys2Proof.Machine
end

section
/-! PROOFS of the family 20_memory.md, first part: the transactions that are refused, the reads, and the steps by the
event they take. -/

namespace Sys2Proof.Machine

/-! ### Refused transactions -/

/-- The width and the alignment are looked at before the offset (20_memory.md R62, log 7). -/
theorem busRead_malformed (s : State) {addr width : Nat} (h : width ≠ 4 ∨ addr % 4 ≠ 0) :
    busRead s addr width = .busError := if_pos h

theorem busWrite_malformed (s : State) {addr width : Nat} (v : Word) (h : width ≠ 4 ∨ addr % 4 ≠ 0) :
    busWrite s addr width v = (.busError, s) := if_pos h

/-- Settles O15: `busRead` and `busWrite` refuse a malformed access before they look at anything else. -/
theorem malformedAccessIsRefused : Obligations.MalformedAccessIsRefused := by
  refine ⟨accessOk_iff, fun s addr n v hbad => ⟨?_, ?_⟩⟩
  · rw [transact_read, busRead_malformed s hbad]
    rfl
  · rw [transact_write, busWrite_malformed s v hbad]
    rfl

theorem csrRead_reserved (s : State) {addr : Nat} (h : 0x020 ≤ addr) : csrRead s addr = none := by
  unfold csrRead
  repeat rw [if_neg (by omega)]

theorem csrWrite_reserved (s : State) {addr : Nat} (v : Word) (h : 0x020 ≤ addr) : csrWrite s addr v = none := by
  unfold csrWrite
  repeat rw [if_neg (by omega)]

/-- Between the control and status registers and the window, an aligned word access is well formed, and neither the busy
lock nor the window covers it. -/
theorem reserved_offset {addr : Nat} (hlo : 0x020 ≤ addr) (hhi : addr ≤ 0xFFC) (h4 : addr % 4 = 0) (s : State)
    (write : Bool) : accessOk addr 4 = true ∧ refusedBusy s addr write = false ∧ inWindow addr = false := by
  refine ⟨(accessOk_iff _ _).2 ⟨rfl, h4, by omega⟩, ?_, ?_⟩
  · rw [← Bool.not_eq_true, refusedBusy_iff]
    omega
  · rw [← Bool.not_eq_true, inWindow_iff]
    omega

theorem busRead_reserved (s : State) {addr : Nat} (hlo : 0x020 ≤ addr) (hhi : addr ≤ 0xFFC) (h4 : addr % 4 = 0) :
    busRead s addr 4 = .busError := by
  obtain ⟨hok, hlock, hwin⟩ := reserved_offset hlo hhi h4 s false
  simp [busRead, h4, hok, hlock, hwin, csrRead_reserved s hlo]

theorem busWrite_reserved (s : State) {addr : Nat} (v : Word) (hlo : 0x020 ≤ addr) (hhi : addr ≤ 0xFFC)
    (h4 : addr % 4 = 0) : busWrite s addr 4 v = (.busError, s) := by
  obtain ⟨hok, hlock, hwin⟩ := reserved_offset hlo hhi h4 s true
  simp [busWrite, h4, hok, hlock, hwin, csrWrite_reserved s v hlo]

/-- Settles O16: no register has a reserved offset; a limb from L up is a window access without effect. -/
theorem reservedOffsetsAreRefused : Obligations.ReservedOffsetsAreRefused := by
  refine fun s addr v h4 => ⟨fun hlo hhi => ?reserved, ?beyondL⟩
  case reserved =>
    rw [transact_read, transact_write, busRead_reserved s hlo hhi h4, busWrite_reserved s v hlo hhi h4]
    exact ⟨rfl, rfl⟩
  case beyondL =>
    rintro i j hb hL hj rfl
    rw [transact_read, transact_write, busRead_window s i hb hj, busWrite_window s i v hb hj,
      windowRead_of_le i hL, windowWrite_of_le i v hL]
    exact ⟨rfl, rfl⟩

/-! ### The busy lock -/

/-- The busy lock covers offsets below 0x2000 alone. -/
theorem lt_of_refusedBusy {s : State} {addr : Nat} {write : Bool} (h : refusedBusy s addr write = true) :
    addr < 0x2000 := by
  obtain ⟨-, hwin | ⟨hcmd, -⟩⟩ := (refusedBusy_iff s addr write).1 h <;> omega

theorem busRead_refusedBusy {s : State} {addr : Nat} (h : refusedBusy s addr false = true) :
    busRead s addr 4 = .busError := by
  by_cases h4 : addr % 4 = 0
  · have hok : accessOk addr 4 = true := (accessOk_iff _ _).2 ⟨rfl, h4, lt_of_refusedBusy h⟩
    simp [busRead, hok, h]
  · exact busRead_malformed s (.inr h4)

theorem busWrite_refusedBusy {s : State} {addr : Nat} (v : Word) (h : refusedBusy s addr true = true) :
    busWrite s addr 4 v = (.busError, s) := by
  by_cases h4 : addr % 4 = 0
  · have hok : accessOk addr 4 = true := (accessOk_iff _ _).2 ⟨rfl, h4, lt_of_refusedBusy h⟩
    simp [busWrite, hok, h]
  · exact busWrite_malformed s v (.inr h4)

/-- A step that ends busy keeps the results: a completion and a reset end idle, and no other step writes them. -/
theorem step_keeps_results_while_busy {s t : State} (hstep : step s = .next t) (hend : t.busy = true) :
    t.flags = s.flags ∧ t.mrs = s.mrs ∧ t.opcnt = s.opcnt := by
  cases step_cause hstep with
  | completion | reset => simp at hend
  | issue | status | ctrl | window | quiet => simp

/-- Settles O17: `refusedBusy` covers the window and a CMD write; the other registers answer as when idle. -/
theorem busyLockRefusesWindowAndCmd : Obligations.BusyLockRefusesWindowAndCmd := by
  refine fun s => ⟨refusedBusy_iff s, fun hbusy => ⟨fun addr v hlo hhi => ?window, fun v => ?cmd,
    busRead_csr (by decide) (by decide) rfl, busRead_csr (by decide) (by decide) rfl,
    busRead_csr (by decide) (by decide) rfl, busRead_status s, busRead_csr (by decide) (by decide) rfl,
    busRead_csr (by decide) (by decide) rfl, busRead_csr (by decide) (by decide) rfl,
    busRead_csr (by decide) (by decide) rfl, fun v => ?ctrlAndStatus⟩, fun v => ⟨rfl, rfl, rfl⟩,
    fun _ _ => step_keeps_results_while_busy⟩
  case window =>
    have hlock (write : Bool) : refusedBusy s addr write = true :=
      (refusedBusy_iff s addr write).2 ⟨hbusy, .inl ⟨hlo, hhi⟩⟩
    rw [transact_read, transact_write, busRead_refusedBusy (hlock false), busWrite_refusedBusy v (hlock true)]
    exact ⟨rfl, rfl⟩
  case cmd =>
    rw [transact_write, busWrite_cmd_busy v hbusy]
    rfl
  case ctrlAndStatus =>
    rw [transact_write, transact_write, busWrite_ctrl, busWrite_status]
    simp

/-! ### Reads -/

/-- `busRead` does not look at the response log. -/
theorem busRead_with_responses (s : State) (rs : List Response) (addr width : Nat) :
    busRead { s with responses := rs } addr width = busRead s addr width := by
  apply busRead_congr <;> rfl

/-- Any number of reads leaves all but the response log. -/
theorem reads_eq_with_responses (reads : List (Nat × Nat)) : ∀ s : State, ∃ rs,
    reads.foldl (fun u p => transact (.read p.1 p.2) u) s = { s with responses := rs } := by
  induction reads with
  | nil => exact fun s => ⟨s.responses, rfl⟩
  | cons p ps ih =>
    intro s
    obtain ⟨rs, hrs⟩ := ih (transact (.read p.1 p.2) s)
    exact ⟨rs, hrs⟩

/-- Settles O22: reads write the response log alone, which no read looks at. -/
theorem readsHaveNoSideEffect : Obligations.ReadsHaveNoSideEffect := by
  intro s reads t
  obtain ⟨rs, hrs⟩ : ∃ rs, t = { s with responses := rs } := reads_eq_with_responses reads s
  rw [hrs]
  exact ⟨rfl, busRead_with_responses s rs⟩

/-! ### Steps by the event they take -/

theorem step_rst {s : State} {es : List Event} (h : s.inputs = .rst :: es) :
    step s = .next (resetBlock { s with inputs := es }) := by
  simp [step, h]

theorem step_engine {s : State} {es : List Event} (h : s.inputs = .engine :: es) :
    step s = engineMove { s with inputs := es } := by
  simp [step, h]

theorem step_of_no_inputs {s : State} (h : s.inputs = []) : step s = engineMove s := by
  simp [step, h]

/-- Settles O2: each event has its step, and an idle engine moves to the same state. -/
theorem stepTakesTheNextEvent : Obligations.StepTakesTheNextEvent := fun _ _ =>
  ⟨fun _ hin => step_bus hin, step_rst,
    fun hidle hin => (step_engine hin).trans (engineMove_of_idle hidle),
    fun hidle hin => (step_of_no_inputs hin).trans (engineMove_of_idle hidle)⟩

/-- A write that changes the registers is a reset by CTRL.SRST or an accepted window write of a limb below L. -/
theorem busWrite_changes_registers {s : State} {addr width : Nat} {v : Word}
    (h : (busWrite s addr width v).2.x ≠ s.x) :
    width = 4 ∧ ((addr = 0x008 ∧ v[1] = true) ∨
      ∃ i j, addr = limbOffset i j ∧ s.busy = false ∧ j < s.cfg.limbs ∧ j ≤ 127) := by
  have heff := busWrite_effect s addr width v
  generalize busWrite s addr width v = p at heff h
  cases heff with
  | refused | outside | ignored | cmd => exact absurd rfl h
  | status => exact absurd (statusWrite_x v s) h
  | ctrl hw ha =>
    cases hv : v[1] with
    | true => exact ⟨hw, .inl ⟨ha, rfl⟩⟩
    | false => rw [ctrlWrite_of_not_srst hv] at h; exact absurd rfl h
  | window i j hw hb hj ha =>
    rcases Nat.lt_or_ge j s.cfg.limbs with hlt | hle
    · exact ⟨hw, .inr ⟨i, j, ha, hb, hlt, hj⟩⟩
    · rw [windowWrite_of_le i v hle] at h; exact absurd rfl h

/-- Settles O49: for each event, whether its step can write the registers. -/
theorem onlyTheseEventsChangeRegisters : Obligations.OnlyTheseEventsChangeRegisters := by
  intro s t hstep hx
  cases step_effect_of_eq hstep with
  | complete c hc hin => exact .inl ⟨by rw [hc]; rfl, hin.imp_right fun e => ⟨_, e⟩⟩
  | idle => exact absurd rfl hx
  | rst hin => exact .inr (.inl (.inl ⟨_, hin⟩))
  | bus txn hin =>
    cases txn with
    | read addr width => exact absurd rfl hx
    | write addr width v =>
      obtain ⟨rfl, ⟨rfl, hv⟩ | ⟨i, j, rfl, hb, hlt, hj⟩⟩ := busWrite_changes_registers hx
      · exact .inr (.inl (.inr ⟨_, v, hin, hv⟩))
      · exact .inr (.inr ⟨_, i, j, v, hb, hlt, hj, hin⟩)

end Sys2Proof.Machine
end

section
/-! PROOFS of the family 20_memory.md, second part: an encoded command decodes to itself, by the row of its mnemonic. -/

namespace Sys2Proof

/-- The row of 30_encoding.md R95 with a command's mnemonic. -/
def rowOf : Instr → CommandRow
  | .modmul _ _ _ _ => commandRows[0]
  | .montmul _ _ _ _ => commandRows[1]
  | .montTo _ _ _ => commandRows[2]
  | .montFrom _ _ _ => commandRows[3]
  | .modexp _ _ _ _ => commandRows[4]
  | .gcd _ _ _ => commandRows[5]
  | .modinv _ _ _ => commandRows[6]
  | .mrPre _ _ => commandRows[7]
  | .mrRound _ _ => commandRows[8]

theorem rowOf_mem (i : Instr) : rowOf i ∈ commandRows := by
  cases i <;> exact List.getElem_mem _

/-- An encoded command passes the mask of its row: OP is the row's, and the reserved and unused fields are 0. -/
theorem rowOf_selects_encode (i : Instr) : (rowOf i).selects (encode i) = true := by
  cases i with
  | modmul | montmul | modexp =>
    refine (selects_allFields _ (by rfl)).2 ?_
    rw [encode, fieldsOf_encodeFields _ (by decide)]
    exact ⟨rfl, rfl⟩
  | montTo | montFrom | modinv =>
    refine (selects_withoutRb _ (by rfl)).2 ?_
    rw [encode, fieldsOf_encodeFields _ (by decide)]
    exact ⟨rfl, rfl, rfl⟩
  | gcd =>
    refine (selects_withoutRm _ (by rfl)).2 ?_
    rw [encode, fieldsOf_encodeFields _ (by decide)]
    exact ⟨rfl, rfl, rfl⟩
  | mrPre =>
    refine (selects_withoutRaRb _ (by rfl)).2 ?_
    rw [encode, fieldsOf_encodeFields _ (by decide)]
    exact ⟨rfl, rfl, rfl, rfl⟩
  | mrRound =>
    refine (selects_withoutRdRb _ (by rfl)).2 ?_
    rw [encode, fieldsOf_encodeFields _ (by decide)]
    exact ⟨rfl, rfl, rfl, rfl⟩

/-- The row builds the command back from its register fields. -/
theorem rowOf_build_encode (i : Instr) : (rowOf i).build (encode i) = i := by
  cases i <;> simp [rowOf, commandRows, encode, regs_encodeFields]

theorem decode_encode (i : Instr) : decode (encode i) = .ok i := by
  rw [decode_of_selects (rowOf_mem i) (rowOf_selects_encode i), rowOf_build_encode]

end Sys2Proof
end

section
/-! PROOFS of the family 20_memory.md, third part: a command line, from its CMD write to the poll that ends it. -/

namespace Sys2Proof.Machine

theorem execute_encode (c : Config) (i : Instr) (x : Regs) : execute c (encode i) x = resultOf c x i := by
  rw [execute, decode_encode]

/-- An issued command reads as BUSY alone (10_state.md R30, 30_encoding.md R101). -/
theorem statusWord_issue (v : Word) (s : State) : statusWord (issue v s) = 0x1#32 := by
  simp [statusWord, ErrCode.code]

/-- The same block with other coming events and another response log. -/
def State.withHost (s : State) (es : List Event) (rs : List Response) : State :=
  { s with inputs := es, responses := rs }

/-- A completion neither reads nor writes the host's side of the interface. -/
theorem complete_withHost (r : Result) (s : State) (es : List Event) (rs : List Response) :
    complete r (s.withHost es rs) = (complete r s).withHost es rs := by
  cases r <;> rfl

theorem step_issue_withHost {s : State} {v : Word} {es : List Event} (hb : s.busy = false)
    (h : s.inputs = .bus (.write 0x010 4 v) :: es) :
    step s = .next ((issue v s).withHost es (.ok :: s.responses)) := step_issue hb h

/-- A poll of STATUS is accepted in every state, busy or idle (20_memory.md R66). -/
theorem step_statusPoll (s : State) (es : List Event) (rs : List Response) :
    step (s.withHost (.bus (.read 0x00C 4) :: es) rs) = .next (s.withHost es (.data (statusWord s) :: rs)) := by
  rw [step_bus (by rfl), transact_read, busRead_status]
  rfl

/-- Polls of STATUS change the response log alone, so each reads the same (20_memory.md R67). -/
theorem run_statusPolls (s : State) (es : List Event) (n : Nat) : ∀ rs : List Response,
    Host.Core.run Sys2Proof.core n (s.withHost (List.replicate n (.bus (.read 0x00C 4)) ++ es) rs) =
      .next (s.withHost es (List.replicate n (.data (statusWord s)) ++ rs)) := by
  induction n with
  | zero => exact fun rs => rfl
  | succ n ih =>
    intro rs
    rw [List.replicate_succ, List.cons_append, run_succ n (step_statusPoll s _ rs), ih, List.replicate_succ']
    simp

/-- The engine completes an issued command by its rule on the registers at issue (30_encoding.md R103, R104). -/
theorem step_engine_issued (s : State) (i : Instr) (es : List Event) (rs : List Response) :
    step ((issue (encode i) s).withHost (.engine :: es) rs) =
      .next ((complete (resultOf s.cfg s.x i) (issue (encode i) s)).withHost es rs) := by
  rw [step_engine (by rfl), engineMove_of_inflight (by rfl), execute_encode, ← complete_withHost]
  rfl

/-- The same completion as `exec` gives it with no event left. -/
theorem exec_issued (s : State) (i : Instr) :
    exec i { issue (encode i) s with inputs := [] } =
      .next ((complete (resultOf s.cfg s.x i) (issue (encode i) s)).withHost [] s.responses) := by
  rw [exec_eq_complete, ← complete_withHost]
  rfl

/-- A command line issues its command, polls, completes, and polls once more. -/
theorem run_hostCommand {s : State} {i : Instr} {polls : Nat} (hb : s.busy = false)
    (hin : s.inputs = hostCommand i polls) :
    Host.Core.run Sys2Proof.core (polls + 3) s =
      .next ((complete (resultOf s.cfg s.x i) (issue (encode i) s)).withHost []
        (.data (statusWord (complete (resultOf s.cfg s.x i) (issue (encode i) s))) ::
          (List.replicate polls (.data 0x1#32) ++ .ok :: s.responses))) := by
  have hevents : s.inputs = .bus (.write 0x010 4 (encode i)) ::
      (List.replicate polls (.bus (.read 0x00C 4)) ++ [.engine, .bus (.read 0x00C 4)]) := by
    rw [hin]
    simp [hostCommand, hostWR, hostRD]
  rw [run_succ _ (step_issue_withHost hb hevents), run_add polls 2 _ _ (run_statusPolls _ _ polls _),
    run_succ 1 (step_engine_issued s i _ _), run_one (step_statusPoll _ _ _), statusWord_issue]

/-- Settles O28: the run is `run_hostCommand`, and its completion is the one `exec` gives. -/
theorem commandLineRunsToCompletion : Obligations.CommandLineRunsToCompletion := fun s i _ hb hin =>
  ⟨_, _, exec_issued s i, run_hostCommand hb hin, rfl, complete_busy _ _, complete_done _ _, sources_issue _ _⟩

end Sys2Proof.Machine
end

section
/-! PROOFS of the family 30_encoding.md, first part: the decoder and the encoder agree, row by row and with the field
table. -/

namespace Sys2Proof

/-- Settles O5: the row of the command's mnemonic selects the encoded word and builds the command back. -/
theorem decodeEncodeRoundTrip : Obligations.DecodeEncodeRoundTrip := decode_encode

/-! ### A decoded command and its row -/

theorem rowOf_build {r : CommandRow} (hr : r ∈ commandRows) (w : Word) : rowOf (r.build w) = r := by
  simp only [commandRows, List.mem_cons, List.not_mem_nil, or_false] at hr
  rcases hr with rfl | rfl | rfl | rfl | rfl | rfl | rfl | rfl | rfl <;> rfl

/-- A word decodes to a command exactly when the command's row selects it and builds the command from it. -/
theorem decode_eq_ok_iff {w : Word} {i : Instr} :
    decode w = .ok i ↔ (rowOf i).selects w = true ∧ (rowOf i).build w = i := by
  constructor
  · intro h
    obtain ⟨r, hr, hsel, rfl⟩ := decode_eq_ok h
    rw [rowOf_build hr]
    exact ⟨hsel, rfl⟩
  · rintro ⟨hsel, hbuild⟩
    rw [decode_of_selects (rowOf_mem i) hsel, hbuild]

/-! ### Encoding what was decoded -/

theorem regAt_eq_zero {w : Word} {lo : Nat} (h : w.extractLsb' lo 3 = 0) : regAt w lo = 0 := by
  apply Fin.ext
  rw [regAt_val, h]
  rfl

/-- A word whose reserved bits are 0 is put together from its OP and its four register fields. -/
theorem encodeFields_fieldsOf {w : Word} (h : (fieldsOf w).reservedClear = true) :
    encodeFields (fieldsOf w).op.toNat (rdOf w) (raOf w) (rbOf w) (rmOf w) = w := by
  simp only [CommandFields.reservedClear, fieldsOf, Bool.and_eq_true, beq_iff_eq] at h
  obtain ⟨⟨⟨h11, h15⟩, h19⟩, hHigh⟩ := h
  apply word_ext
  rw [fieldsOf_encodeFields _ (BitVec.isLt _)]
  simp only [fieldsOf, rdOf, raOf, rbOf, rmOf, ofNat_regAt, BitVec.ofNat_toNat, BitVec.setWidth_eq, h11, h15, h19,
    hHigh]

/-- The fields a row's mask tests are those its command leaves 0, so the word is rebuilt from the others. -/
theorem encode_build {w : Word} (i : Instr) (h : (rowOf i).selects w = true) : encode ((rowOf i).build w) = w := by
  cases i with
  | modmul | montmul | modexp =>
    obtain ⟨hop, hres⟩ := (selects_allFields w (by rfl)).1 h
    have hw := encodeFields_fieldsOf hres
    rwa [hop] at hw
  | montTo | montFrom | modinv =>
    obtain ⟨hop, hres, hrb⟩ := (selects_withoutRb w (by rfl)).1 h
    have hw := encodeFields_fieldsOf hres
    rwa [hop, rbOf, regAt_eq_zero hrb] at hw
  | gcd =>
    obtain ⟨hop, hres, hrm⟩ := (selects_withoutRm w (by rfl)).1 h
    have hw := encodeFields_fieldsOf hres
    rwa [hop, rmOf, regAt_eq_zero hrm] at hw
  | mrPre =>
    obtain ⟨hop, hres, hra, hrb⟩ := (selects_withoutRaRb w (by rfl)).1 h
    have hw := encodeFields_fieldsOf hres
    rwa [hop, raOf, regAt_eq_zero hra, rbOf, regAt_eq_zero hrb] at hw
  | mrRound =>
    obtain ⟨hop, hres, hrd, hrb⟩ := (selects_withoutRdRb w (by rfl)).1 h
    have hw := encodeFields_fieldsOf hres
    rwa [hop, rdOf, regAt_eq_zero hrd, rbOf, regAt_eq_zero hrb] at hw

/-- Settles O6: the command is the one its row builds, and `encode_build` gives the word back. -/
theorem encodeDecodeRoundTrip : Obligations.EncodeDecodeRoundTrip := by
  intro w i h
  obtain ⟨hsel, hbuild⟩ := decode_eq_ok_iff.1 h
  rw [← hbuild, encode_build i hsel]

/-! ### The rows and the field table -/

theorem wellFormed_encode (i : Instr) : (fieldsOf (encode i)).wellFormed = true := by
  cases i with
  | modmul => exact Laws.EncodedWellFormed.modmul _ _ _ _
  | montmul => exact Laws.EncodedWellFormed.montmul _ _ _ _
  | montTo => exact Laws.EncodedWellFormed.montTo _ _ _
  | montFrom => exact Laws.EncodedWellFormed.montFrom _ _ _
  | modexp => exact Laws.EncodedWellFormed.modexp _ _ _ _
  | gcd => exact Laws.EncodedWellFormed.gcd _ _ _
  | modinv => exact Laws.EncodedWellFormed.modinv _ _ _
  | mrPre => exact Laws.EncodedWellFormed.mrPre _ _
  | mrRound => exact Laws.EncodedWellFormed.mrRound _ _

/-- The assigned values of OP (30_encoding.md R94). -/
theorem opAssigned_iff (f : CommandFields) : f.opAssigned = true ↔
    f.op = 0x01 ∨ f.op = 0x02 ∨ f.op = 0x03 ∨ f.op = 0x04 ∨ f.op = 0x08 ∨ f.op = 0x10 ∨ f.op = 0x11 ∨
      f.op = 0x18 ∨ f.op = 0x19 := by
  unfold CommandFields.opAssigned fieldUse
  repeat' split
  all_goals simp_all

theorem unusedClear_of_fieldUse {f : CommandFields} {u : FieldUse} (h : fieldUse f.op = some u) :
    f.unusedClear = true ↔ (u.rd = false → f.rd = 0) ∧ (u.ra = false → f.ra = 0) ∧ (u.rb = false → f.rb = 0) ∧
      (u.rm = false → f.rm = 0) := by
  simp [CommandFields.unusedClear, h, or_iff_not_imp_left, and_assoc]

/-- The row of an assigned OP selects every well-formed word with that OP (30_encoding.md R95, R96). -/
theorem exists_row_of_wellFormed {w : Word} (h : (fieldsOf w).wellFormed = true) :
    ∃ r ∈ commandRows, r.selects w = true := by
  simp only [CommandFields.wellFormed, Bool.and_eq_true] at h
  obtain ⟨⟨hassigned, hres⟩, hunused⟩ := h
  have use {u : FieldUse} (hu : fieldUse (fieldsOf w).op = some u) := (unusedClear_of_fieldUse hu).1 hunused
  rcases (opAssigned_iff _).1 hassigned with hop | hop | hop | hop | hop | hop | hop | hop | hop
  · exact ⟨commandRows[0], List.getElem_mem _, (selects_allFields w (by rfl)).2 ⟨hop, hres⟩⟩
  · exact ⟨commandRows[1], List.getElem_mem _, (selects_allFields w (by rfl)).2 ⟨hop, hres⟩⟩
  · obtain ⟨-, -, hrb, -⟩ := use (by rw [hop]; rfl)
    exact ⟨commandRows[2], List.getElem_mem _, (selects_withoutRb w (by rfl)).2 ⟨hop, hres, hrb rfl⟩⟩
  · obtain ⟨-, -, hrb, -⟩ := use (by rw [hop]; rfl)
    exact ⟨commandRows[3], List.getElem_mem _, (selects_withoutRb w (by rfl)).2 ⟨hop, hres, hrb rfl⟩⟩
  · exact ⟨commandRows[4], List.getElem_mem _, (selects_allFields w (by rfl)).2 ⟨hop, hres⟩⟩
  · obtain ⟨-, -, -, hrm⟩ := use (by rw [hop]; rfl)
    exact ⟨commandRows[5], List.getElem_mem _, (selects_withoutRm w (by rfl)).2 ⟨hop, hres, hrm rfl⟩⟩
  · obtain ⟨-, -, hrb, -⟩ := use (by rw [hop]; rfl)
    exact ⟨commandRows[6], List.getElem_mem _, (selects_withoutRb w (by rfl)).2 ⟨hop, hres, hrb rfl⟩⟩
  · obtain ⟨-, hra, hrb, -⟩ := use (by rw [hop]; rfl)
    exact ⟨commandRows[7], List.getElem_mem _, (selects_withoutRaRb w (by rfl)).2 ⟨hop, hres, hra rfl, hrb rfl⟩⟩
  · obtain ⟨hrd, -, hrb, -⟩ := use (by rw [hop]; rfl)
    exact ⟨commandRows[8], List.getElem_mem _, (selects_withoutRdRb w (by rfl)).2 ⟨hop, hres, hrd rfl, hrb rfl⟩⟩

/-- The legal words are the well-formed ones (30_encoding.md R96, R97). -/
theorem wellFormed_iff_decodes (w : Word) : (fieldsOf w).wellFormed = true ↔ ∃ i, decode w = .ok i := by
  constructor
  · intro h
    obtain ⟨r, hr, hsel⟩ := exists_row_of_wellFormed h
    exact ⟨_, decode_of_selects hr hsel⟩
  · rintro ⟨i, h⟩
    rw [← encodeDecodeRoundTrip w i h]
    exact wellFormed_encode i

theorem not_wellFormed_of_decode_error {w : Word} {e : Reject} (h : decode w = .error e) :
    (fieldsOf w).wellFormed = false := by
  rw [← Bool.not_eq_true, wellFormed_iff_decodes, h]
  rintro ⟨i, hi⟩
  cases hi

theorem decode_error_of_not_wellFormed {w : Word} (h : (fieldsOf w).wellFormed = false) :
    ∃ e, decode w = .error e := by
  cases hd : decode w with
  | ok i => rw [(wellFormed_iff_decodes w).2 ⟨i, hd⟩] at h; cases h
  | error e => exact ⟨e, rfl⟩

/-- Settles O7: a reserved or unused bit makes the word ill-formed, so it decodes to nothing and no row selects it. -/
theorem legalWordsAreTheWellFormedWords : Obligations.LegalWordsAreTheWellFormedWords := by
  refine fun w => ⟨wellFormed_iff_decodes w, fun _ hbad => ?_⟩
  have hill : (fieldsOf w).wellFormed = false := by
    rcases hbad with h | h <;> simp [CommandFields.wellFormed, h]
  obtain ⟨e, he⟩ := decode_error_of_not_wellFormed hill
  exact ⟨(decode_eq_error he).2, e, he⟩

/-- Settles O8: an illegal word is ill-formed, and `rejectReason` names the first of its three conditions that fails. -/
theorem rejectionsAreNamed : Obligations.RejectionsAreNamed := by
  intro w e h
  obtain ⟨rfl, -⟩ := decode_eq_error h
  have hill := not_wellFormed_of_decode_error h
  cases hassigned : (fieldsOf w).opAssigned with
  | false => exact .inl ⟨by simp [rejectReason, hassigned], rfl⟩
  | true =>
    cases hres : (fieldsOf w).reservedClear with
    | false => exact .inr (.inl ⟨by simp [rejectReason, hassigned, hres], rfl, rfl⟩)
    | true =>
      have hunused : (fieldsOf w).unusedClear = false := by
        simpa [CommandFields.wellFormed, hassigned, hres] using hill
      exact .inr (.inr ⟨by simp [rejectReason, hassigned, hres], rfl, rfl, hunused⟩)

/-! ### The match and mask table -/

theorem decode_of_masked {w : Word} (n : Nat) (hn : n < commandRows.length)
    (h : w &&& commandRows[n].mask = commandRows[n].pattern) : decode w = .ok (commandRows[n].build w) :=
  decode_of_selects (List.getElem_mem hn) (beq_iff_eq.2 h)

theorem masked_of_decode {w : Word} {i : Instr} (h : decode w = .ok i) :
    w &&& (rowOf i).mask = (rowOf i).pattern :=
  beq_iff_eq.1 (decode_eq_ok_iff.1 h).1

/-- Settles O9: each row selects by its mask and builds its own command; two rows that select one word have its OP, and
a row is determined by its OP. -/
theorem matchAndMaskTable : Obligations.MatchAndMaskTable := by
  intro w
  refine ⟨⟨fun h => ⟨_, _, _, _, decode_of_masked 0 (by decide) h⟩, fun ⟨_, _, _, _, h⟩ => masked_of_decode h⟩,
    ⟨fun h => ⟨_, _, _, _, decode_of_masked 1 (by decide) h⟩, fun ⟨_, _, _, _, h⟩ => masked_of_decode h⟩,
    ⟨fun h => ⟨_, _, _, decode_of_masked 2 (by decide) h⟩, fun ⟨_, _, _, h⟩ => masked_of_decode h⟩,
    ⟨fun h => ⟨_, _, _, decode_of_masked 3 (by decide) h⟩, fun ⟨_, _, _, h⟩ => masked_of_decode h⟩,
    ⟨fun h => ⟨_, _, _, _, decode_of_masked 4 (by decide) h⟩, fun ⟨_, _, _, _, h⟩ => masked_of_decode h⟩,
    ⟨fun h => ⟨_, _, _, decode_of_masked 5 (by decide) h⟩, fun ⟨_, _, _, h⟩ => masked_of_decode h⟩,
    ⟨fun h => ⟨_, _, _, decode_of_masked 6 (by decide) h⟩, fun ⟨_, _, _, h⟩ => masked_of_decode h⟩,
    ⟨fun h => ⟨_, _, decode_of_masked 7 (by decide) h⟩, fun ⟨_, _, h⟩ => masked_of_decode h⟩,
    ⟨fun h => ⟨_, _, decode_of_masked 8 (by decide) h⟩, fun ⟨_, _, h⟩ => masked_of_decode h⟩,
    fun r q hr hq hrw hqw => ?_⟩
  rw [row_eq_of_op hr hq ((op_of_selects hr hrw).symm.trans (op_of_selects hq hqw))]

/-- Settles O10: the ten legal words are encodings; each of the other six is rejected by evaluation. -/
theorem writtenOutWordsDecode : Obligations.WrittenOutWordsDecode :=
  ⟨decode_encode (.modexp 3 0 1 2), decode_encode (.gcd 0 0 1), decode_encode (.modinv 0 0 2),
    decode_encode (.mrPre 3 2), decode_encode (.mrRound 1 2), decode_encode (.mrRound 0 0),
    decode_encode (.modmul 3 0 1 2), decode_encode (.montmul 3 0 1 2), decode_encode (.montTo 3 0 2),
    decode_encode (.montFrom 3 0 2), rfl, rfl, rfl, rfl, rfl, rfl⟩

end Sys2Proof
end

section
/-! PROOFS of the family 30_encoding.md, second part: issue, completion, and the assembler. -/

namespace Sys2Proof.Machine

/-! ### Issue and completion -/

/-- The engine runs the decoded command in flight (30_encoding.md R103). -/
theorem engineMove_of_decode_ok {s : State} {c : Command} {i : Instr} (hc : s.inflight = some c)
    (hd : decode c.word = .ok i) : engineMove s = exec i s := by
  simp only [engineMove, hc, hd]

/-- An illegal word in flight ends in ILLEGAL_CMD (30_encoding.md R97). -/
theorem engineMove_of_decode_error {s : State} {c : Command} {e : Reject} (hc : s.inflight = some c)
    (hd : decode c.word = .error e) : engineMove s = .next (raiseError .illegalCmd s) := by
  simp only [engineMove, hc, hd]

/-- Settles O1: with no event left or at an engine event the step is the engine's move. -/
theorem stepRunsTheDecodedCommand : Obligations.StepRunsTheDecodedCommand := fun _ _ _ hc hd =>
  ⟨fun hin => (step_of_no_inputs hin).trans (engineMove_of_decode_ok hc hd),
    fun _ hin => (step_engine hin).trans (engineMove_of_decode_ok hc hd)⟩

/-- Settles O3: the engine's move is `raiseError`, which writes STATUS and what is in flight. -/
theorem illegalWordCompletesWithIllegalCmd : Obligations.IllegalWordCompletesWithIllegalCmd := fun _ _ _ hc hd =>
  ⟨fun hin => (step_of_no_inputs hin).trans (engineMove_of_decode_error hc hd),
    fun _ hin => (step_engine hin).trans (engineMove_of_decode_error hc hd)⟩

/-- The step of a completing engine, with the events it leaves (30_encoding.md R103, log 2). -/
theorem step_of_inflight {s : State} {c : Command} {es : List Event} (hc : s.inflight = some c)
    (hin : (s.inputs = [] ∧ es = []) ∨ s.inputs = .engine :: es) :
    step s = .next (complete (execute s.cfg c.word c.snap) { s with inputs := es }) := by
  rcases hin with ⟨hin, rfl⟩ | hin
  · rw [step_of_no_inputs hin, engineMove_of_inflight hc, ← hin]
  · rw [step_engine hin]
    exact engineMove_of_inflight hc

/-- Settles O4: the step is `complete` of what `execute` returns, and R103 writes out both of its forms. -/
theorem engineStepIsTheAtomicCompletion : Obligations.EngineStepIsTheAtomicCompletion := by
  intro s c es hc hin
  rw [step_of_inflight hc hin]
  cases execute s.cfg c.word c.snap with
  | err code => rfl
  | ok dest flags mrs opcnt => cases mrs <;> rfl

/-- Settles O27: an idle block issues the word without decoding it; the engine's move then meets the illegal word. -/
theorem cmdWriteIssues : Obligations.CmdWriteIssues := by
  refine fun s v => ⟨fun hb => ?idle, fun hb => ?busy, fun e hb hd => ?illegal⟩
  case idle =>
    rw [transact_write, busWrite_cmd v hb]
    rfl
  case busy =>
    rw [transact_write, busWrite_cmd_busy v hb]
    rfl
  case illegal =>
    rw [transact_write, busWrite_cmd v hb]
    exact ⟨_, engineMove_of_decode_error (c := ⟨v, s.x⟩) (by rfl) hd, rfl, rfl⟩

/-! ### The assembler -/

/-- The operand count of every mnemonic and pseudo-command (30_encoding.md R99, R100). -/
def operandCounts : List (String × Nat) :=
  [("MR_PRE", 2), ("MR_ROUND", 2), ("MONT_TO", 3), ("MONT_FROM", 3), ("GCD", 3), ("MODINV", 3), ("MODSQR", 3),
    ("MONTSQR", 3), ("MODMUL", 4), ("MONTMUL", 4), ("MODEXP", 4), ("MODRED", 4)]

/-- A line that assembles shows the operand count of its mnemonic. -/
theorem length_of_assembleRegs {m : String} {rs : List Reg} {i : Instr} (h : assembleRegs m rs = some i) :
    ∃ f ∈ operandCounts, sameMnemonic m f.1 = true ∧ rs.length = f.2 := by
  by_contra hno
  simp only [operandCounts, List.mem_cons, List.not_mem_nil, or_false, exists_eq_or_imp, exists_eq_left, not_or,
    not_and', Bool.not_eq_true] at hno
  unfold assembleRegs at h
  split at h <;> simp_all

/-- No two spellings of one mnemonic show different operand counts. -/
theorem operandCounts_functional :
    ∀ f ∈ operandCounts, ∀ g ∈ operandCounts, sameMnemonic f.1 g.1 = true → g.2 = f.2 := by
  decide

/-- A line with another operand count than its mnemonic's is refused (30_encoding.md R99). -/
theorem assemble_of_length_ne {m : String} {n : Nat} (hm : (m, n) ∈ operandCounts) {ops : List String}
    (h : ops.length ≠ n) : assemble m ops = none := by
  refine assemble_of_length (fun rs hrs => ?_) h
  rw [Option.eq_none_iff_forall_ne_some]
  intro i hi
  obtain ⟨f, hf, hsame, hlen⟩ := length_of_assembleRegs hi
  exact hrs (hlen.trans (operandCounts_functional _ hm f hf hsame))

theorem mnemonicOf_mem_operandCounts (i : Instr) : (mnemonicOf i, (operandsOf i).length) ∈ operandCounts := by
  cases i <;> simp [mnemonicOf, operandsOf, operandCounts]

theorem assembleRegs_operandsOf (i : Instr) : assembleRegs (mnemonicOf i) (operandsOf i) = some i := by
  cases i <;> simp [assembleRegs, mnemonicOf, operandsOf, sameMnemonic]

/-- Settles O11: a line of register names assembles by its indices, the mnemonic is looked at up to case, and a name or
a count that does not fit is refused before any form is built. -/
theorem assemblerRoundTrip : Obligations.AssemblerRoundTrip := by
  refine ⟨fun i => ?ownLine, fun xd xa xm xone => ?pseudo, fun m m' ops hcase => ?spelling,
    fun m name ops hname hmem => ?name,
    fun i ops hlen => assemble_of_length_ne (mnemonicOf_mem_operandCounts i) hlen,
    fun ops => ⟨fun hlen => ⟨assemble_of_length_ne (by decide) hlen, assemble_of_length_ne (by decide) hlen⟩,
      assemble_of_length_ne (by decide)⟩⟩
  case ownLine =>
    have hline : assemble (mnemonicOf i) ((operandsOf i).map regName) = some i := by
      rw [assemble_map_regName, assembleRegs_operandsOf]
    rw [assembleWord, hline]
    exact ⟨rfl, rfl⟩
  case pseudo =>
    exact ⟨assemble_map_regName _ [xd, xa, xm], assemble_map_regName _ [xd, xa, xm],
      assemble_map_regName _ [xd, xa, xm, xone]⟩
  case spelling =>
    simp only [assemble, assembleRegs_congr hcase]
  case name =>
    rw [assemble, regsOfNames_of_mem hname hmem]

end Sys2Proof.Machine
end

section
/-! PROOFS of the family 30_encoding.md, third part: LDX and STX, limb by limb. -/

namespace Sys2Proof.Machine

/-! ### LDX -/

/-- The value of a register that held `u` after limbs 0 to n − 1 of `v` were written to it. -/
def loaded (u v n : Nat) : Nat := v % 2 ^ (32 * n) + u / 2 ^ (32 * n) * 2 ^ (32 * n)

theorem loaded_zero (u v : Nat) : loaded u v 0 = u := by simp [loaded, Nat.mod_one]

/-- Below 2^(32·n) nothing is left of the old value. -/
theorem loaded_of_lt {u v n : Nat} (hu : u < 2 ^ (32 * n)) (hv : v < 2 ^ (32 * n)) : loaded u v n = v := by
  rw [loaded, Nat.mod_eq_of_lt hv, Nat.div_eq_of_lt hu, zero_mul, add_zero]

theorem mod_limb_succ (v n : Nat) : v % 2 ^ (32 * (n + 1)) = v % 2 ^ (32 * n) + limb v n * 2 ^ (32 * n) := by
  rw [mul_add, mul_one, pow_add, Nat.mod_mul, limb, mul_comm (2 ^ (32 * n))]

theorem toNat_limb (v n : Nat) : (BitVec.ofNat 32 (limb v n)).toNat = limb v n := by
  rw [BitVec.toNat_ofNat, Nat.mod_eq_of_lt (limb_lt v n)]

/-- Writing limb n of `v` loads one limb more. -/
theorem setLimb_loaded (u v n : Nat) :
    setLimb (loaded u v n) n (BitVec.ofNat 32 (limb v n)) = loaded u v (n + 1) := by
  have hpos : 0 < 2 ^ (32 * n) := by positivity
  have hlow : loaded u v n % 2 ^ (32 * n) = v % 2 ^ (32 * n) := by
    rw [loaded, Nat.add_mul_mod_self_right, Nat.mod_mod]
  have hhigh : loaded u v n / 2 ^ (32 * n) = u / 2 ^ (32 * n) := by
    rw [loaded, Nat.add_mul_div_right _ _ hpos, Nat.div_eq_of_lt (Nat.mod_lt _ hpos), zero_add]
  have hstep : 2 ^ (32 * (n + 1)) = 2 ^ (32 * n) * 2 ^ 32 := by rw [mul_add, mul_one, pow_add]
  rw [setLimb_eq, toNat_limb, hlow, hstep, ← Nat.div_div_eq_div_mul, hhigh, loaded, mod_limb_succ, hstep,
    ← Nat.div_div_eq_div_mul]
  ring

/-- The same block with another value in x[i]. -/
def State.withReg (s : State) (i : Reg) (v : Nat) : State := { s with x := writeReg s.x i v }

/-- A window write of a limb below L while idle (10_state.md R39). -/
theorem step_windowWrite_withHost {s : State} (i : Reg) {j : Nat} (v : Word) (hb : s.busy = false)
    (hj : j < s.cfg.limbs) (hL : s.cfg.limbs ≤ 128) (es : List Event) (rs : List Response) :
    step (s.withHost (hostWR (limbOffset i j) v ++ es) rs) =
      .next ((s.withReg i (setLimb (readReg s.x i) j v)).withHost es (.ok :: rs)) := by
  have hstep := step_windowWrite (s := s.withHost (hostWR (limbOffset i j) v ++ es) rs) hb (by omega) rfl
  rw [windowWrite_of_lt i v (by exact hj)] at hstep
  exact hstep

/-- Writing limbs 0 to n − 1 takes n steps and loads them (30_encoding.md R107). -/
theorem run_loadLimbs {s : State} (i : Reg) (v : Nat) (hb : s.busy = false) (hL : s.cfg.limbs ≤ 128) (n : Nat) :
    n ≤ s.cfg.limbs → ∀ (es : List Event) (rs : List Response),
    Host.Core.run Sys2Proof.core n (s.withHost (loadLimbs i v n ++ es) rs) =
      .next ((s.withReg i (loaded (readReg s.x i) v n)).withHost es (List.replicate n .ok ++ rs)) := by
  induction n with
  | zero =>
    intro _ es rs
    rw [loaded_zero, State.withReg, writeReg_readReg]
    rfl
  | succ n ih =>
    intro hn es rs
    have hlast := step_windowWrite_withHost (s := s.withReg i (loaded (readReg s.x i) v n)) i
      (BitVec.ofNat 32 (limb v n)) hb hn hL es (List.replicate n .ok ++ rs)
    rw [loadLimbs, List.append_assoc, run_add n 1 _ _ (ih (by omega) _ rs)]
    refine (run_one hlast).trans ?_
    simp [State.withReg, setLimb_loaded, List.replicate_succ]

/-- Settles O59: L limbs are written, and no bit of a register lies above them. -/
theorem loadWritesTheWholeRegister : Obligations.LoadWritesTheWholeRegister := by
  intro s i v hinv hb hv hin
  obtain ⟨⟨-, hL⟩, -⟩ := hinv.legal
  have hrun := run_loadLimbs i v hb hL s.cfg.limbs le_rfl [] s.responses
  rw [List.append_nil, ← hostLDX, ← hin, loaded_of_lt (hinv.regs i) hv] at hrun
  exact hrun

/-! ### STX -/

/-- The responses to a read of limbs 0 to n − 1 of x[i], newest first. -/
def limbResponses (s : State) (i : Reg) : Nat → List Response
  | 0 => []
  | n + 1 => .data (BitVec.ofNat 32 (limb (readReg s.x i) n)) :: limbResponses s i n

theorem assembleLimbs_limbResponses (s : State) (i : Reg) (rs : List Response) (n : Nat) :
    assembleLimbs n (limbResponses s i n ++ rs) = some (readReg s.x i % 2 ^ (32 * n)) := by
  induction n with
  | zero => simp [assembleLimbs, Nat.mod_one]
  | succ n ih =>
    rw [limbResponses, List.cons_append, assembleLimbs, ih, toNat_limb, mod_limb_succ]
    rfl

/-- A window read of a limb below L while idle (10_state.md R39). -/
theorem step_windowRead_withHost {s : State} (i : Reg) {j : Nat} (hb : s.busy = false) (hj : j < s.cfg.limbs)
    (hL : s.cfg.limbs ≤ 128) (es : List Event) (rs : List Response) :
    step (s.withHost (hostRD (limbOffset i j) ++ es) rs) =
      .next (s.withHost es (.data (BitVec.ofNat 32 (limb (readReg s.x i) j)) :: rs)) := by
  have hstep := step_windowRead (s := s.withHost (hostRD (limbOffset i j) ++ es) rs) hb (by omega) rfl
  rw [windowRead_of_lt i (by exact hj)] at hstep
  exact hstep

/-- Reading limbs 0 to n − 1 takes n steps and changes the response log alone (30_encoding.md R107). -/
theorem run_readLimbs {s : State} (i : Reg) (hb : s.busy = false) (hL : s.cfg.limbs ≤ 128) (n : Nat) :
    n ≤ s.cfg.limbs → ∀ (es : List Event) (rs : List Response),
    Host.Core.run Sys2Proof.core n (s.withHost (readLimbs i n ++ es) rs) =
      .next (s.withHost es (limbResponses s i n ++ rs)) := by
  induction n with
  | zero => exact fun _ _ _ => rfl
  | succ n ih =>
    intro hn es rs
    rw [readLimbs, List.append_assoc, run_add n 1 _ _ (ih (by omega) _ rs),
      run_one (step_windowRead_withHost i hb hn hL es _)]
    rfl

/-- Settles O60: the L limbs are the whole of x[i], since x[i] is below 2^W. -/
theorem storeReadsTheWholeRegister : Obligations.StoreReadsTheWholeRegister := by
  intro s i hinv hb hin
  obtain ⟨⟨-, hL⟩, -⟩ := hinv.legal
  have hrun := run_readLimbs i hb hL s.cfg.limbs le_rfl [] s.responses
  rw [List.append_nil, ← hostSTX, ← hin] at hrun
  have hvalue : readReg s.x i % 2 ^ (32 * s.cfg.limbs) = readReg s.x i := Nat.mod_eq_of_lt (hinv.regs i)
  refine ⟨_, hrun, rfl, ?_⟩
  rw [← hvalue]
  exact assembleLimbs_limbResponses s i s.responses s.cfg.limbs

end Sys2Proof.Machine
end

section
/-! PROOFS of the family 40_modmul_montgomery.md, first part: the four multiplier commands, and the Montgomery
domain. -/

namespace Sys2Proof.Machine

/-! ### Completions -/

/-- A success that writes one register and not MR_S, field by field (30_encoding.md R103). -/
theorem exec_of_ok {i : Instr} {s : State} {d : Reg} {v : Nat} {f o : Word}
    (h : resultOf s.cfg s.sources i = .ok (some (d, v)) f none o) :
    exec i s = .next
      { s with x := writeReg s.x d v, flags := f, opcnt := o, busy := false, done := true, inflight := none } := by
  rw [exec_eq_complete, h]
  rfl

/-- An error writes STATUS alone (60_exceptions.md R223). -/
theorem exec_of_err {i : Instr} {s : State} {code : ErrCode} (h : resultOf s.cfg s.sources i = .err code) :
    exec i s = .next { s with err := true, errcode := code, busy := false, done := true, inflight := none } := by
  rw [exec_eq_complete, h]
  rfl

/-- An issued command that succeeds writes its destination and no other register. -/
theorem exec_issue_writes {i : Instr} {s : State} {d : Reg} {v : Nat} {f o : Word} {m : Option Word}
    (h : resultOf s.cfg s.x i = .ok (some (d, v)) f m o) :
    ∃ t, exec i (issue (encode i) s) = .next t ∧ t.cfg = s.cfg ∧
      ∀ k, readReg t.x k = if k = d then v else readReg s.x k :=
  ⟨_, exec_issue_of_ok h, rfl, fun k => readReg_writeReg s.x d k v⟩

/-! ### Montgomery reduction (40_modmul_montgomery.md R122, R124) -/

/-- (t·R^-1) mod N, what MONTMUL makes of a·b and MONT_FROM of a. -/
def montReduce (c : Config) (N t : Nat) : Nat := t * invMod (c.radix % N) N % N

theorem montProduct_eq_montReduce (c : Config) (N a b : Nat) : montProduct c N a b = montReduce c N (a * b) := rfl

theorem montReduce_lt {N : Nat} (h : 1 < N) (c : Config) (t : Nat) : montReduce c N t < N :=
  Nat.mod_lt _ (by omega)

theorem montReduce_mul_radix {N : Nat} (h : 1 < N) (ho : N % 2 = 1) (c : Config) (t : Nat) :
    montReduce c N t * c.radix % N = t % N := mul_radix_inverse h ho c t

/-- The reduction of t is the one value below N that R takes to t modulo N. -/
theorem eq_montReduce {c : Config} {N v t : Nat} (h : 1 < N) (ho : N % 2 = 1) (hv : v < N)
    (hR : v * c.radix ≡ t [MOD N]) : v = montReduce c N t := by
  have hred : montReduce c N t * c.radix ≡ t [MOD N] := montReduce_mul_radix h ho c t
  have hcancel : v ≡ montReduce c N t [MOD N] :=
    Nat.ModEq.cancel_right_of_coprime (gcd_radix ho c) (hR.trans hred.symm)
  exact hcancel.eq_of_lt_of_lt hv (montReduce_lt h c t)

/-- What is congruent to u·R modulo N reduces to u mod N. -/
theorem montReduce_of_modEq {c : Config} {N t u : Nat} (h : 1 < N) (ho : N % 2 = 1)
    (ht : u * c.radix ≡ t [MOD N]) : montReduce c N t = u % N :=
  (eq_montReduce h ho (Nat.mod_lt _ (by omega)) (((Nat.mod_modEq u N).mul_right _).trans ht)).symm

/-- MONT_FROM undoes MONT_TO (R125). -/
theorem montReduce_montForm {N : Nat} (h : 1 < N) (ho : N % 2 = 1) (c : Config) (u : Nat) :
    montReduce c N (u * c.radix % N) = u % N :=
  montReduce_of_modEq h ho (Nat.mod_modEq _ N).symm

/-- The Montgomery product of two values in Montgomery form is their product in Montgomery form (R125). -/
theorem montReduce_mul_montForm {N : Nat} (h : 1 < N) (ho : N % 2 = 1) (c : Config) (u v : Nat) :
    montReduce c N (u * c.radix % N * (v * c.radix % N)) = u * v * c.radix % N := by
  refine montReduce_of_modEq h ho ?_
  calc u * v * c.radix * c.radix = u * c.radix * (v * c.radix) := by ring
    _ ≡ u * c.radix % N * (v * c.radix % N) [MOD N] :=
      (Nat.mod_modEq _ N).symm.mul (Nat.mod_modEq _ N).symm

/-! ### Results -/

section Results

variable {x : Regs} {ra rb rm : Reg}

theorem modmulResult_of_lt (h : 1 < readReg x rm) (rd ra rb : Reg) :
    modmulResult rd ra rb rm x = .ok (some (rd, readReg x ra * readReg x rb % readReg x rm)) 0#32 none 1#32 := by
  rw [modmulResult, withModulus_of_lt h, flagsClear_eq]

theorem modmulResult_of_le (h : readReg x rm ≤ 1) (rd ra rb : Reg) :
    modmulResult rd ra rb rm x = .err .modulusSmall := withModulus_of_le h _

theorem montmulResult_of_lt (h : 1 < readReg x rm) (ho : readReg x rm % 2 = 1) (ha : readReg x ra < readReg x rm)
    (hb : readReg x rb < readReg x rm) (c : Config) (rd : Reg) :
    montmulResult c rd ra rb rm x =
      .ok (some (rd, montReduce c (readReg x rm) (readReg x ra * readReg x rb))) 0#32 none 1#32 := by
  rw [montmulResult, withOddModulus_of_odd h ho, if_neg (by omega), flagsClear_eq]
  rfl

theorem montToResult_of_odd (h : 1 < readReg x rm) (ho : readReg x rm % 2 = 1) (c : Config) (rd ra : Reg) :
    montToResult c rd ra rm x = .ok (some (rd, readReg x ra * c.radix % readReg x rm)) 0#32 none 1#32 := by
  rw [montToResult, withOddModulus_of_odd h ho, flagsClear_eq]

theorem montFromResult_of_odd (h : 1 < readReg x rm) (ho : readReg x rm % 2 = 1) (c : Config) (rd ra : Reg) :
    montFromResult c rd ra rm x = .ok (some (rd, montReduce c (readReg x rm) (readReg x ra))) 0#32 none 1#32 := by
  rw [montFromResult, withOddModulus_of_odd h ho, flagsClear_eq]
  rfl

end Results

/-! ### The commands complete -/

/-- Settles O29: the one check of MODMUL is MODULUS_SMALL. -/
theorem modmulCompletes : Obligations.ModmulCompletes := fun rd ra rb _ _ =>
  ⟨fun h => exec_of_ok (modmulResult_of_lt h rd ra rb), fun h => exec_of_err (modmulResult_of_le h rd ra rb)⟩

/-- Settles O30, by the congruence that defines the reduction of a·b. -/
theorem montmulCompletes : Obligations.MontmulCompletes := by
  intro rd ra rb rm s a b N h ho ha hb
  exact ⟨montReduce s.cfg N (a * b), montReduce_lt h _ _, montReduce_mul_radix h ho s.cfg _,
    exec_of_ok (montmulResult_of_lt h ho ha hb s.cfg rd)⟩

/-- Settles O31. -/
theorem montToCompletes : Obligations.MontToCompletes := fun rd ra _ s h ho =>
  exec_of_ok (montToResult_of_odd h ho s.cfg rd ra)

/-- Settles O32, by the congruence that defines the reduction of a. -/
theorem montFromCompletes : Obligations.MontFromCompletes := by
  intro rd ra rm s a N h ho
  exact ⟨montReduce s.cfg N a, montReduce_lt h _ _, montReduce_mul_radix h ho s.cfg _,
    exec_of_ok (montFromResult_of_odd h ho s.cfg rd ra)⟩

/-! ### The Montgomery domain (R125) -/

/-- What an issued MONT_TO leaves in each register, for the modulus N that x[RM] holds; the two lemmas below say the
same of MONTMUL and MONT_FROM, so that a chain of them is read off register by register. -/
theorem exec_issue_montTo {s : State} {N : Nat} {rm : Reg} (hN : readReg s.x rm = N) (h : 1 < N) (ho : N % 2 = 1)
    (rd ra : Reg) :
    ∃ t, exec (.montTo rd ra rm) (issue (encode (.montTo rd ra rm)) s) = .next t ∧ t.cfg = s.cfg ∧
      ∀ k, readReg t.x k = if k = rd then readReg s.x ra * s.cfg.radix % N else readReg s.x k := by
  subst hN
  exact exec_issue_writes (montToResult_of_odd h ho s.cfg rd ra)

theorem exec_issue_montmul {s : State} {N : Nat} {rm ra rb : Reg} (hN : readReg s.x rm = N) (h : 1 < N)
    (ho : N % 2 = 1) (ha : readReg s.x ra < N) (hb : readReg s.x rb < N) (rd : Reg) :
    ∃ t, exec (.montmul rd ra rb rm) (issue (encode (.montmul rd ra rb rm)) s) = .next t ∧ t.cfg = s.cfg ∧
      ∀ k, readReg t.x k =
        if k = rd then montReduce s.cfg N (readReg s.x ra * readReg s.x rb) else readReg s.x k := by
  subst hN
  exact exec_issue_writes (montmulResult_of_lt h ho ha hb s.cfg rd)

theorem exec_issue_montFrom {s : State} {N : Nat} {rm : Reg} (hN : readReg s.x rm = N) (h : 1 < N) (ho : N % 2 = 1)
    (rd ra : Reg) :
    ∃ t, exec (.montFrom rd ra rm) (issue (encode (.montFrom rd ra rm)) s) = .next t ∧ t.cfg = s.cfg ∧
      ∀ k, readReg t.x k = if k = rd then montReduce s.cfg N (readReg s.x ra) else readReg s.x k := by
  subst hN
  exact exec_issue_writes (montFromResult_of_odd h ho s.cfg rd ra)

theorem exec_issue_modmul {s : State} {rm : Reg} (h : 1 < readReg s.x rm) (rd ra rb : Reg) :
    ∃ t, exec (.modmul rd ra rb rm) (issue (encode (.modmul rd ra rb rm)) s) = .next t ∧
      readReg t.x rd = readReg s.x ra * readReg s.x rb % readReg s.x rm := by
  obtain ⟨t, ht, -, hx⟩ := exec_issue_writes (i := .modmul rd ra rb rm) (modmulResult_of_lt h rd ra rb)
  exact ⟨t, ht, (hx rd).trans (if_pos rfl)⟩

/-- Settles O52: each conversion leaves the value of its operand in Montgomery form, the product of the two forms is the
form of the product, and the conversion back undoes it. -/
theorem montgomeryDomainProduct : Obligations.MontgomeryDomainProduct := by
  intro s ra rb rm r1 r2 r3 r4 a b N R b' a' h ho h1 h2 h3
  refine ⟨?_, exec_issue_modmul h r4 ra rb, ?_⟩
  · obtain ⟨s1, e1, c1, x1⟩ := exec_issue_montTo (s := s) rfl h ho r1 ra
    have hN1 : readReg s1.x rm = N := (x1 rm).trans (if_neg h1.symm)
    obtain ⟨s2, e2, c2, x2⟩ := exec_issue_montTo hN1 h ho r2 rb
    have hN2 : readReg s2.x rm = N := ((x2 rm).trans (if_neg h2.symm)).trans hN1
    have hb' : readReg s1.x rb = b' := (x1 rb).trans (if_congr eq_comm rfl rfl)
    rw [hb', c1] at x2
    have hright : readReg s2.x r2 = b' * s.cfg.radix % N := (x2 r2).trans (if_pos rfl)
    have hleft : readReg s2.x r1 = a' * s.cfg.radix % N := by
      rw [x2, x1, if_pos rfl]
      by_cases h21 : r2 = r1
      · rw [if_pos h21.symm, show a' = b' from if_pos h21]
      · rw [if_neg (Ne.symm h21), show a' = a from if_neg h21]
    have hlt (u : Nat) : u % N < N := Nat.mod_lt _ (by omega)
    obtain ⟨s3, e3, c3, x3⟩ := exec_issue_montmul hN2 h ho (hleft ▸ hlt _) (hright ▸ hlt _) r3
    have hN3 : readReg s3.x rm = N := ((x3 rm).trans (if_neg h3.symm)).trans hN2
    obtain ⟨s4, e4, -, x4⟩ := exec_issue_montFrom hN3 h ho r4 r3
    have hresult : readReg s4.x r4 = a' * b' % N := by
      rw [x4, if_pos rfl, x3, if_pos rfl, hleft, hright, c3, c2, c1, montReduce_mul_montForm h ho,
        montReduce_montForm h ho]
    refine ⟨s1, s2, s3, s4, e1, e2, e3, e4, hresult, fun h1b h21 => ?_⟩
    rw [hresult, show a' = a from if_neg h21, show b' = b from if_neg h1b]
  · obtain ⟨u, hu, hsq⟩ := exec_issue_modmul h r4 ra ra
    exact ⟨u, hu, by rw [hsq, ← sq]⟩

end Sys2Proof.Machine
end

section
/-! PROOFS of the family 40_modmul_montgomery.md, second part: the word-serial multiplier of section 7. -/

namespace Sys2Proof.Machine

/-! ### The constant n0' -/

/-- `n0' = −N^-1 mod 2^32`, as `wordSerialMontmul` computes it from N's lowest limb. -/
def negInverse (N : Nat) : Nat := (2 ^ 32 - invMod (N % 2 ^ 32) (2 ^ 32)) % 2 ^ 32

theorem wordSerialMontmul_eq (c : Config) (a b N : Nat) : wordSerialMontmul c a b N =
    if wordSerialRounds (negInverse N) a b N c.limbs ≥ N then wordSerialRounds (negInverse N) a b N c.limbs - N
    else wordSerialRounds (negInverse N) a b N c.limbs := rfl

theorem dvd_negInverse_mul_add_one {N : Nat} (ho : N % 2 = 1) : 2 ^ 32 ∣ negInverse N * N + 1 := by
  have hcop : Nat.gcd (N % 2 ^ 32) (2 ^ 32) = 1 :=
    Nat.Coprime.pow_right 32 (Nat.coprime_two_right.2 (Nat.odd_iff.2 (by omega)))
  obtain ⟨hinv, -, hlt⟩ := invMod_spec (by norm_num) hcop
  rw [negInverse]
  generalize invMod (N % 2 ^ 32) (2 ^ 32) = u at *
  have huN : u * N ≡ 1 [MOD 2 ^ 32] :=
    calc u * N ≡ u * (N % 2 ^ 32) [MOD 2 ^ 32] := (Nat.mod_modEq _ _).symm.mul_left u
      _ = N % 2 ^ 32 * u := mul_comm _ _
      _ ≡ 1 [MOD 2 ^ 32] := hinv
  refine Nat.modEq_zero_iff_dvd.1 ?_
  calc (2 ^ 32 - u) % 2 ^ 32 * N + 1
      ≡ (2 ^ 32 - u) * N + u * N [MOD 2 ^ 32] := ((Nat.mod_modEq _ _).mul_right N).add huN.symm
    _ = 2 ^ 32 * N := by rw [← add_mul, Nat.sub_add_cancel hlt.le]
    _ ≡ 0 [MOD 2 ^ 32] := Nat.mul_mod_right _ _

/-! ### One round -/

section Round

variable {n0 b N t ai : Nat}

/-- The division of a round is exact: m makes the lowest limb 0. -/
theorem wordSerialRound_mul (hn0 : 2 ^ 32 ∣ n0 * N + 1) :
    wordSerialRound n0 b N t ai * 2 ^ 32 = t + ai * b + limb (t + ai * b) 0 * n0 % 2 ^ 32 * N := by
  rw [wordSerialRound]
  generalize t + ai * b = t1
  have hlimb : limb t1 0 ≡ t1 [MOD 2 ^ 32] := by simp [limb, Nat.ModEq]
  refine Nat.div_mul_cancel (Nat.modEq_zero_iff_dvd.1 ?_)
  calc t1 + limb t1 0 * n0 % 2 ^ 32 * N
      ≡ t1 + t1 * n0 * N [MOD 2 ^ 32] :=
        (((Nat.mod_modEq _ _).trans (hlimb.mul_right n0)).mul_right N).add_left t1
    _ = t1 * (n0 * N + 1) := by ring
    _ ≡ 0 [MOD 2 ^ 32] := Nat.modEq_zero_iff_dvd.2 (hn0.mul_left t1)

theorem wordSerialRound_modEq (hn0 : 2 ^ 32 ∣ n0 * N + 1) :
    wordSerialRound n0 b N t ai * 2 ^ 32 ≡ t + ai * b [MOD N] := by
  rw [wordSerialRound_mul hn0]
  exact Nat.add_mul_mod_self_right _ _ _

theorem wordSerialRound_lt (ht : t < N + b) (hai : ai < 2 ^ 32) : wordSerialRound n0 b N t ai < N + b := by
  have hab : ai * b ≤ (2 ^ 32 - 1) * b := Nat.mul_le_mul_right b (by omega)
  have hmN : limb (t + ai * b) 0 * n0 % 2 ^ 32 * N ≤ (2 ^ 32 - 1) * N :=
    Nat.mul_le_mul_right N (Nat.le_sub_one_of_lt (Nat.mod_lt _ (by norm_num)))
  exact Nat.div_lt_of_lt_mul (by omega)

end Round

/-! ### All rounds -/

theorem wordSerialRounds_lt {N : Nat} (hN : 0 < N) (n0 a b i : Nat) : wordSerialRounds n0 a b N i < N + b := by
  induction i with
  | zero => exact Nat.add_pos_left hN b
  | succ i ih => exact wordSerialRound_lt ih (limb_lt a i)

/-- After i rounds t is the Montgomery product of a's i lowest limbs with b, for the radix 2^(32·i). -/
theorem wordSerialRounds_modEq {n0 N : Nat} (hn0 : 2 ^ 32 ∣ n0 * N + 1) (a b i : Nat) :
    wordSerialRounds n0 a b N i * 2 ^ (32 * i) ≡ a % 2 ^ (32 * i) * b [MOD N] := by
  induction i with
  | zero => simp [wordSerialRounds, Nat.mod_one, Nat.ModEq]
  | succ i ih =>
    calc wordSerialRounds n0 a b N (i + 1) * 2 ^ (32 * (i + 1))
        = wordSerialRound n0 b N (wordSerialRounds n0 a b N i) (limb a i) * 2 ^ 32 * 2 ^ (32 * i) := by
          rw [wordSerialRounds, mul_add, pow_add]; ring
      _ ≡ (wordSerialRounds n0 a b N i + limb a i * b) * 2 ^ (32 * i) [MOD N] :=
          (wordSerialRound_modEq hn0).mul_right _
      _ = wordSerialRounds n0 a b N i * 2 ^ (32 * i) + limb a i * b * 2 ^ (32 * i) := add_mul ..
      _ ≡ a % 2 ^ (32 * i) * b + limb a i * b * 2 ^ (32 * i) [MOD N] := ih.add_right _
      _ = a % 2 ^ (32 * (i + 1)) * b := by rw [mod_limb_succ]; ring

/-! ### The final subtraction -/

theorem condSub_eq_mod {t N : Nat} (h : t < N + N) : (if t ≥ N then t - N else t) = t % N := by
  split
  · rw [Nat.mod_eq_sub_mod ‹_›, Nat.mod_eq_of_lt (by omega)]
  · rw [Nat.mod_eq_of_lt (by omega)]

theorem wordSerialMontmul_eq_montReduce {c : Config} {a b N : Nat} (h : 1 < N) (ho : N % 2 = 1) (ha : a < c.radix)
    (hb : b < N) : wordSerialMontmul c a b N = montReduce c N (a * b) := by
  have hlt := wordSerialRounds_lt (by omega : 0 < N) (negInverse N) a b c.limbs
  have hrounds : wordSerialRounds (negInverse N) a b N c.limbs * c.radix ≡ a % c.radix * b [MOD N] :=
    wordSerialRounds_modEq (dvd_negInverse_mul_add_one ho) a b c.limbs
  rw [Nat.mod_eq_of_lt ha] at hrounds
  rw [wordSerialMontmul_eq, condSub_eq_mod (by omega)]
  exact eq_montReduce h ho (Nat.mod_lt _ (by omega)) (((Nat.mod_modEq _ N).mul_right _).trans hrounds)

/-- Settles O57: the rounds give a·b·R^-1 modulo N below 2·N, and the subtraction makes it the reduction of a·b. -/
theorem wordSerialMultiplierRefinesMontmul : Obligations.WordSerialMultiplierRefinesMontmul := by
  intro c x rd ra rb rm a b N h ho hR ha hb
  have heq : wordSerialMontmul c a b N = montReduce c N (a * b) :=
    wordSerialMontmul_eq_montReduce h ho (ha.trans hR) hb
  exact ⟨by rw [heq, montProduct_eq_montReduce], by rw [heq]; exact montmulResult_of_lt h ho ha hb c rd⟩

end Sys2Proof.Machine
end

section
/-! PROOFS of the family 41_modexp.md: MODEXP, the RSA round trip, and exponentiation in Montgomery form. -/

namespace Sys2Proof.Machine

/-! ### The command -/

/-- R150 and R151 together, with the count by the exponent's binary digits. -/
theorem modexpCounted_eq {N : Nat} (h : 1 < N) (a d : Nat) :
    modexpCounted a d N = (a ^ d % N, (Nat.digits 2 d).length + (Nat.digits 2 d).sum) :=
  Prod.ext (modexpCounted_fst h a d)
    (by rw [modexpCounted_snd, bitlen_eq_digits_length, popcount_eq_digits_sum])

section Results

variable {x : Regs} {rm : Reg}

theorem modexpResult_of_lt (h : 1 < readReg x rm) (rd ra rb : Reg) :
    modexpResult rd ra rb rm x =
      .ok (some (rd, readReg x ra ^ readReg x rb % readReg x rm)) 0#32 none
        (BitVec.ofNat 32 ((Nat.digits 2 (readReg x rb)).length + (Nat.digits 2 (readReg x rb)).sum)) := by
  rw [modexpResult, withModulus_of_lt h, modexpCounted_eq h, flagsClear_eq]
  rfl

theorem modexpResult_of_le (h : readReg x rm ≤ 1) (rd ra rb : Reg) :
    modexpResult rd ra rb rm x = .err .modulusSmall := withModulus_of_le h _

end Results

/-- Settles O33: the one check of MODEXP is MODULUS_SMALL. -/
theorem modexpCompletes : Obligations.ModexpCompletes := fun rd ra rb _ _ =>
  ⟨fun h => exec_of_ok (modexpResult_of_lt h rd ra rb), fun h => exec_of_err (modexpResult_of_le h rd ra rb)⟩

/-! ### The RSA round trip (R153) -/

/-- Fermat's little theorem for every base, multiples of p included: the exponent is not 0. -/
theorem pow_modEq_self {p k : Nat} (hp : p.Prime) (hk : 1 ≤ k) (hdvd : p - 1 ∣ k - 1) (m : Nat) :
    m ^ k ≡ m [MOD p] := by
  obtain ⟨j, hj⟩ := hdvd
  by_cases hm : p ∣ m
  · have hpow : p ∣ m ^ k := dvd_pow hm (by omega)
    exact (Nat.modEq_zero_iff_dvd.2 hpow).trans (Nat.modEq_zero_iff_dvd.2 hm).symm
  · have hcop : m.Coprime p := ((Nat.Prime.coprime_iff_not_dvd hp).2 hm).symm
    calc m ^ k = (m ^ (p - 1)) ^ j * m := by rw [← pow_mul, ← hj, ← pow_succ, Nat.sub_add_cancel hk]
      _ ≡ 1 ^ j * m [MOD p] := ((Nat.ModEq.pow_card_sub_one_eq_one hp hcop).pow j).mul_right m
      _ = m := by rw [one_pow, one_mul]

/-- With distinct primes (p − 1)(q − 1) is at least 2, so an exponent congruent to 1 is not 0. -/
theorem one_lt_sub_one_mul_sub_one {p q : Nat} (hp : p.Prime) (hq : q.Prime) (hpq : p ≠ q) :
    1 < (p - 1) * (q - 1) := by
  have hp2 : 2 ≤ p := hp.two_le
  have hq2 : 2 ≤ q := hq.two_le
  rcases Nat.lt_or_gt_of_ne hpq with hlt | hlt
  · exact Nat.lt_of_lt_of_le (by omega : 1 < q - 1) (Nat.le_mul_of_pos_left _ (by omega))
  · exact Nat.lt_of_lt_of_le (by omega : 1 < p - 1) (Nat.le_mul_of_pos_right _ (by omega))

/-- The exponents undo each other modulo p and modulo q, so they do modulo p·q. -/
theorem rsa_pow_modEq {p q k : Nat} (hp : p.Prime) (hq : q.Prime) (hpq : p ≠ q)
    (hk : k % ((p - 1) * (q - 1)) = 1 % ((p - 1) * (q - 1))) (m : Nat) : m ^ k ≡ m [MOD p * q] := by
  have hphi := one_lt_sub_one_mul_sub_one hp hq hpq
  have hpos : 1 ≤ k := by
    rcases Nat.eq_zero_or_pos k with rfl | hpos
    · rw [Nat.zero_mod, Nat.mod_eq_of_lt hphi] at hk
      omega
    · exact hpos
  have hdvd : (p - 1) * (q - 1) ∣ k - 1 := (Nat.modEq_iff_dvd' hpos).1 hk.symm
  exact (Nat.modEq_and_modEq_iff_modEq_mul ((Nat.coprime_primes hp hq).2 hpq)).1
    ⟨pow_modEq_self hp hpos ((Nat.dvd_mul_right _ _).trans hdvd) m,
      pow_modEq_self hq hpos ((Nat.dvd_mul_left _ _).trans hdvd) m⟩

/-- What an issued MODEXP leaves in each register, for the modulus N that x[RM] holds. -/
theorem exec_issue_modexp {s : State} {N : Nat} {rm : Reg} (hN : readReg s.x rm = N) (h : 1 < N) (rd ra rb : Reg) :
    ∃ t, exec (.modexp rd ra rb rm) (issue (encode (.modexp rd ra rb rm)) s) = .next t ∧
      ∀ k, readReg t.x k = if k = rd then readReg s.x ra ^ readReg s.x rb % N else readReg s.x k := by
  subst hN
  obtain ⟨t, ht, -, hx⟩ := exec_issue_writes (i := .modexp rd ra rb rm) (modexpResult_of_lt h rd ra rb)
  exact ⟨t, ht, hx⟩

/-- Settles O56: the first command keeps the second key and the modulus, and the two exponents undo each other. -/
theorem rsaRoundTrip : Obligations.RsaRoundTrip := by
  intro s p q rc rt rmsg re rk rn hp hq hpq hn hm hkey hck hcn
  have hone : 1 < p * q := Nat.lt_of_lt_of_le hp.one_lt (Nat.le_mul_of_pos_right p hq.pos)
  obtain ⟨u, hu, xu⟩ := exec_issue_modexp hn hone rc rmsg re
  have hnu : readReg u.x rn = p * q := ((xu rn).trans (if_neg hcn.symm)).trans hn
  have hku : readReg u.x rk = readReg s.x rk := (xu rk).trans (if_neg hck.symm)
  have hcu : readReg u.x rc = readReg s.x rmsg ^ readReg s.x re % (p * q) := (xu rc).trans (if_pos rfl)
  obtain ⟨v, hv, xv⟩ := exec_issue_modexp hnu hone rt rc rk
  refine ⟨u, v, hu, hv, ?_⟩
  calc readReg v.x rt
      = (readReg s.x rmsg ^ readReg s.x re % (p * q)) ^ readReg s.x rk % (p * q) := by
        rw [xv, if_pos rfl, hcu, hku]
    _ = readReg s.x rmsg ^ (readReg s.x re * readReg s.x rk) % (p * q) := by rw [← Nat.pow_mod, ← pow_mul]
    _ = readReg s.x rmsg := Nat.mod_eq_of_modEq (rsa_pow_modEq hp hq hpq hkey _) hm

/-! ### Exponentiation in Montgomery form (R152) -/

/-- The Montgomery product of two forms is the form of the product reduced modulo N, the plain loop's own next value. -/
theorem montProduct_montForm {N : Nat} (h : 1 < N) (ho : N % 2 = 1) (c : Config) (u v : Nat) :
    montProduct c N (u * c.radix % N) (v * c.radix % N) = u * v % N * c.radix % N := by
  rw [montProduct_eq_montReduce, montReduce_mul_montForm h ho, Nat.mod_mul_mod]

/-- The two loops run in step: started on the Montgomery forms of the plain loop's values, the Montgomery loop ends on
the form of its result, with its count. -/
theorem montLoop_montForm {N : Nat} (h : 1 < N) (ho : N % 2 = 1) (c : Config) (k : Nat) :
    ∀ e result acc cnt : Nat, montLoop c N k e (result * c.radix % N) (acc * c.radix % N) cnt =
      ((modexpLoop N k e result acc cnt).1 * c.radix % N, (modexpLoop N k e result acc cnt).2) := by
  induction k with
  | zero => exact fun _ _ _ _ => rfl
  | succ k ih =>
    intro e result acc cnt
    rw [montLoop, modexpLoop]
    split
    case isTrue => rfl
    case isFalse =>
      split
      case isTrue => rw [montProduct_montForm h ho, montProduct_montForm h ho, ih]
      case isFalse => rw [montProduct_montForm h ho, ih]

/-- Settles O58: the loops run in step, and the conversion out undoes the Montgomery form of a result below N. -/
theorem montgomeryExponentiationRefinesModexp : Obligations.MontgomeryExponentiationRefinesModexp := by
  intro c a d N h ho
  have hlt : (modexpCounted a d N).1 < N := by
    rw [modexpCounted_fst h]
    exact Nat.mod_lt _ (by omega)
  have hloop : montLoop c N (bitlen d) d (1 * c.radix % N) (a * c.radix % N) 0 =
      ((modexpCounted a d N).1 * c.radix % N, (modexpCounted a d N).2) := montLoop_montForm h ho c _ d 1 a 0
  have hout : montReduce c N ((modexpCounted a d N).1 * c.radix % N) = (modexpCounted a d N).1 := by
    rw [montReduce_montForm h ho, Nat.mod_eq_of_lt hlt]
  rw [montModexp, hloop]
  exact Prod.ext hout rfl

end Sys2Proof.Machine
end

section
/-! PROOFS of the family 42_gcd_modinv.md: GCD, MODINV, and their laws. -/

namespace Sys2Proof.Machine

/-! ### The commands -/

theorem gcdResult_eq (rd ra rb : Reg) (x : Regs) :
    gcdResult rd ra rb x = .ok (some (rd, Nat.gcd (readReg x ra) (readReg x rb))) 0#32 none 0#32 := by
  rw [gcdResult, euclid_eq_gcd, flagsClear_eq]

/-- MODINV reduces its operand first; the inverse is the same (R171). -/
theorem invMod_mod (a n : Nat) : invMod (a % n) n = invMod a n := by
  rw [invMod, invMod, Nat.mod_mod]

theorem euclid_mod (a n : Nat) : euclid (a % n) n = Nat.gcd a n := by
  rw [euclid_eq_gcd, ← Nat.gcd_rec, Nat.gcd_comm]

section Results

variable {x : Regs} {ra rm : Reg}

/-- R171 past the check of the modulus, by the gcd of the operands as they stand in the registers. -/
theorem modinvResult_of_lt (h : 1 < readReg x rm) (rd ra : Reg) :
    modinvResult rd ra rm x =
      if Nat.gcd (readReg x ra) (readReg x rm) = 1 then
        .ok (some (rd, invMod (readReg x ra) (readReg x rm))) 0#32 none 0#32
      else .ok (some (rd, 0)) 0x02#32 none 0#32 := by
  rw [modinvResult, withModulus_of_lt h]
  dsimp only
  rw [euclid_mod, invMod_mod, ite_not, flagsClear_eq, flagsNoInverse_eq]

theorem modinvResult_of_coprime (h : 1 < readReg x rm) (hg : Nat.gcd (readReg x ra) (readReg x rm) = 1) (rd : Reg) :
    modinvResult rd ra rm x = .ok (some (rd, invMod (readReg x ra) (readReg x rm))) 0#32 none 0#32 :=
  (modinvResult_of_lt h rd ra).trans (if_pos hg)

theorem modinvResult_of_not_coprime (h : 1 < readReg x rm) (hg : Nat.gcd (readReg x ra) (readReg x rm) ≠ 1)
    (rd : Reg) : modinvResult rd ra rm x = .ok (some (rd, 0)) 0x02#32 none 0#32 :=
  (modinvResult_of_lt h rd ra).trans (if_neg hg)

theorem modinvResult_of_le (h : readReg x rm ≤ 1) (rd ra : Reg) :
    modinvResult rd ra rm x = .err .modulusSmall := withModulus_of_le h _

end Results

/-- Settles O34: GCD has no check, and Euclid's loop computes `Nat.gcd`. -/
theorem gcdCompletes : Obligations.GcdCompletes := fun rd ra rb s =>
  exec_of_ok (gcdResult_eq rd ra rb s.sources)

/-- Settles O35: past the check of the modulus, the gcd decides between the inverse of `invMod_spec` and the sentinel. -/
theorem modinvCompletes : Obligations.ModinvCompletes := by
  intro rd ra rm s a n
  refine ⟨fun h hg => ?_, fun h hg => exec_of_ok (modinvResult_of_not_coprime h hg rd),
    fun h => exec_of_err (modinvResult_of_le h rd ra)⟩
  obtain ⟨hinv, hpos, hlt⟩ := invMod_spec h hg
  exact ⟨invMod a n, hpos, hlt, hinv, exec_of_ok (modinvResult_of_coprime h hg rd)⟩

/-! ### The laws (R172) -/

/-- Settles O53: each law is read off the destination that `gcdCompletes` and `modinvCompletes` give. -/
theorem gcdAndInverseLaws : Obligations.GcdAndInverseLaws := by
  intro s rd ra rb a b
  constructor
  · refine ⟨_, _, gcdCompletes rd ra rb s, gcdCompletes rd rb ra s, ?_⟩
    simp only [readReg_writeReg_same]
    exact ⟨Nat.gcd_comm a b, Nat.gcd_dvd_left a b, Nat.gcd_dvd_right a b, fun _ => Nat.dvd_gcd⟩
  · intro h
    obtain ⟨hcoprime, hshared, -⟩ := modinvCompletes rd ra rb s
    by_cases hg : Nat.gcd a b = 1
    · obtain ⟨v, -, -, hinv, ht⟩ := hcoprime h hg
      refine ⟨_, ht, fun _ => ?_, fun hgt => absurd hg hgt.ne'⟩
      rw [readReg_writeReg_same]
      exact hinv
    · exact ⟨_, hshared h hg, fun h1 => absurd h1 hg, fun _ => readReg_writeReg_same _ _ _⟩

end Sys2Proof.Machine
end

section
/-! PROOFS of the family 43_primality.md: MR_PRE, MR_ROUND, and the host's primality test. -/

namespace Sys2Proof.Machine

/-! ### Completions -/

/-- A success with any destination and any MR_S, in the words of `completeOk` (30_encoding.md R103). -/
theorem exec_eq_completeOk {i : Instr} {s : State} {d : Option (Reg × Nat)} {f o : Word} {m : Option Word}
    (h : resultOf s.cfg s.sources i = .ok d f m o) : exec i s = .next (completeOk d f m o s) := by
  rw [exec_eq_complete, h]
  rfl

/-! ### MR_PRE (R190) -/

theorem mrClassOf_eq_notPrime {n : Nat} (h : n < 2 ∨ (4 ≤ n ∧ n % 2 = 0)) : mrClassOf n = .notPrime := by
  unfold mrClassOf
  rcases h with hsmall | ⟨hfour, heven⟩
  · rw [if_pos hsmall]
  · rw [if_neg (by omega), if_neg (by omega), if_pos heven]

theorem mrClassOf_eq_prime {n : Nat} (h : n = 2 ∨ n = 3) : mrClassOf n = .prime := by
  rw [mrClassOf, if_neg (by omega), if_pos h]

theorem mrClassOf_eq_test {n : Nat} (hn : 5 ≤ n) (ho : n % 2 = 1) : mrClassOf n = .test := by
  rw [mrClassOf, if_neg (by omega), if_neg (by omega), if_neg (by omega)]

section PreResults

variable {x : Regs} {rm : Reg}

theorem mrPreResult_of_trivial (h : readReg x rm < 2 ∨ (4 ≤ readReg x rm ∧ readReg x rm % 2 = 0)) (rd : Reg) :
    mrPreResult rd rm x = .ok (some (rd, 0)) 0x00#32 (some 0#32) 0#32 := by
  simp only [mrPreResult, mrClassOf_eq_notPrime h, flagsOfClass_notPrime]

theorem mrPreResult_of_two_or_three (h : readReg x rm = 2 ∨ readReg x rm = 3) (rd : Reg) :
    mrPreResult rd rm x = .ok (some (rd, 0)) 0x11#32 (some 0#32) 0#32 := by
  simp only [mrPreResult, mrClassOf_eq_prime h, flagsOfClass_prime]

theorem mrPreResult_of_candidate (hn : 5 ≤ readReg x rm) (ho : readReg x rm % 2 = 1) (rd : Reg) :
    mrPreResult rd rm x = .ok (some (rd, (oddPart (readReg x rm)).1)) 0x20#32
      (some (countWord (oddPart (readReg x rm)).2)) 0#32 := by
  simp only [mrPreResult, mrClassOf_eq_test hn ho, flagsOfClass_test]

end PreResults

/-- Settles O36: the class decides the result, and `oddPart` decomposes n − 1. -/
theorem mrPreCompletes : Obligations.MrPreCompletes := by
  intro rd rm s n
  refine ⟨fun h => exec_eq_completeOk (i := .mrPre rd rm) (mrPreResult_of_trivial h rd),
    fun h => exec_eq_completeOk (i := .mrPre rd rm) (mrPreResult_of_two_or_three h rd), fun hn ho => ?_⟩
  obtain ⟨hodd, hprod⟩ := oddPart_spec (n := n) (by omega)
  exact ⟨(oddPart n).1, (oddPart n).2, hodd, one_le_oddPart_snd (by omega) ho, hprod,
    exec_eq_completeOk (i := .mrPre rd rm) (mrPreResult_of_candidate hn ho rd)⟩

/-! ### MR_ROUND (R191, R192) -/

/-- Past both checks a round succeeds; its FLAGS say whether it proved n composite. -/
theorem mrRoundResult_of_candidate {x : Regs} {ra rm : Reg} (hn : 5 ≤ readReg x rm) (ho : readReg x rm % 2 = 1)
    (ha : 2 ≤ readReg x ra) (han : readReg x ra ≤ readReg x rm - 2) :
    mrRoundResult ra rm x = .ok none (flagsOfRound (mrRoundRun (readReg x ra) (readReg x rm)).composite)
      (some (countWord (oddPart (readReg x rm)).2)) (countWord (mrRoundRun (readReg x ra) (readReg x rm)).cnt) := by
  rw [mrRoundResult, if_neg (by omega), if_neg (by omega)]

/-- Settles O37: `mrRoundRun_spec` names q and the verdict, the count being by the binary digits of r. -/
theorem mrRoundCompletes : Obligations.MrRoundCompletes := by
  intro ra rm s a n ho hn ha han
  obtain ⟨hodd, hprod⟩ := oddPart_spec (n := n) (by omega)
  obtain ⟨q, hq, hbefore, hend, hpass, hcnt⟩ := mrRoundRun_spec (a := a) hn ho
  have hexec := exec_eq_completeOk (i := .mrRound ra rm) (mrRoundResult_of_candidate hn ho ha han)
  refine ⟨(oddPart n).1, (oddPart n).2, q, !(mrRoundRun a n).composite, hodd, hprod, hq, hbefore, hend, ?_, ?_⟩
  · rw [Bool.not_eq_true', hpass]
  · rw [hexec, hcnt, flagsOfRound_eq, bitlen_eq_digits_length, popcount_eq_digits_sum]
    cases (mrRoundRun a n).composite <;> rfl

/-! ### Primes pass every round -/

/-- Modulo a prime 1 has no square roots but 1 and −1. -/
theorem mod_eq_one_or_of_sq_mod_eq_one {p y : Nat} (hp : p.Prime) (h : y ^ 2 % p = 1) : y % p = 1 ∨ y % p = p - 1 := by
  have hp1 : 1 < p := hp.one_lt
  have hsq : 1 ^ 2 ≡ y ^ 2 [MOD p] := by rw [one_pow, Nat.ModEq, h, Nat.mod_eq_of_lt hp1]
  have hpos : 1 ≤ y := by
    rcases Nat.eq_zero_or_pos y with rfl | hpos
    · simp at h
    · exact hpos
  have hdvd : p ∣ (y + 1) * (y - 1) := by
    rw [← Nat.sq_sub_sq]
    exact (Nat.modEq_iff_dvd' (Nat.pow_le_pow_left hpos 2)).1 hsq
  rcases hp.dvd_mul.1 hdvd with hminus | hone
  · have hmod : y + 1 ≡ p - 1 + 1 [MOD p] := by
      rw [Nat.sub_add_cancel hp1.le]
      exact (Nat.modEq_zero_iff_dvd.2 hminus).trans (Nat.modEq_zero_iff_dvd.2 dvd_rfl).symm
    exact .inr (Nat.mod_eq_of_modEq hmod.add_right_cancel' (by omega))
  · exact .inl (Nat.mod_eq_of_modEq ((Nat.modEq_iff_dvd' hpos).2 hone).symm hp1)

/-- Repeated squaring modulo a prime reaches 1 only from 1 or through −1. -/
theorem mod_eq_one_or_exists_of_pow_two_pow {p y : Nat} (hp : p.Prime) (e : Nat) (h : y ^ 2 ^ e % p = 1) :
    y % p = 1 ∨ ∃ j < e, y ^ 2 ^ j % p = p - 1 := by
  induction e with
  | zero => exact .inl (by simpa using h)
  | succ e ih =>
    rw [pow_succ, pow_mul] at h
    rcases mod_eq_one_or_of_sq_mod_eq_one hp h with hone | hminus
    · exact (ih hone).imp_right fun ⟨j, hj, hjv⟩ => ⟨j, hj.trans (Nat.lt_succ_self e), hjv⟩
    · exact .inr ⟨e, Nat.lt_succ_self e, hminus⟩

/-- A prime is never proved composite: by Fermat the squaring sequence would end in 1 (R191). -/
theorem mrRoundRun_composite_of_prime {a n : Nat} (hp : n.Prime) (hn : 5 ≤ n) (ha : 2 ≤ a) (han : a ≤ n - 2) :
    (mrRoundRun a n).composite = false := by
  have ho : n % 2 = 1 := (hp.eq_two_or_odd).resolve_left (by omega)
  obtain ⟨-, hprod⟩ := oddPart_spec (n := n) hp.one_lt
  obtain ⟨-, -, -, -, hpass, -⟩ := mrRoundRun_spec (a := a) hn ho
  have hcop : a.Coprime n := (Nat.coprime_of_lt_prime (by omega) (by omega) hp).symm
  have hfermat : (a ^ (oddPart n).1) ^ 2 ^ (oddPart n).2 % n = 1 := by
    rw [← pow_mul, mul_comm, hprod]
    exact Nat.mod_eq_of_modEq (Nat.ModEq.pow_card_sub_one_eq_one hp hcop) hp.one_lt
  rw [hpass]
  simpa only [← pow_mul, mul_comm] using mod_eq_one_or_exists_of_pow_two_pow hp _ hfermat

theorem flagPrime_flagsOfRound (c : Bool) : flagPrime (flagsOfRound c) = !c := by cases c <;> decide

/-- Settles O54: the round's FLAGS are those of a value it never proves composite. -/
theorem primesPassEveryWitness : Obligations.PrimesPassEveryWitness := by
  intro s ra rm hp hn ha han
  have ho : readReg s.sources rm % 2 = 1 := (hp.eq_two_or_odd).resolve_left (by omega)
  have hpass :
      flagPrime (flagsOfRound (mrRoundRun (readReg s.sources ra) (readReg s.sources rm)).composite) = true := by
    rw [flagPrime_flagsOfRound, mrRoundRun_composite_of_prime hp hn ha han, Bool.not_false]
  exact ⟨_, exec_eq_completeOk (i := .mrRound ra rm) (mrRoundResult_of_candidate hn ho ha han), rfl, hpass⟩

/-! ### The host's primality test (R193) -/

/-- One round decides: a witness that proves n composite ends the procedure, any other leaves it to the rest. -/
theorem isPrimeRounds_cons {a n : Nat} (hn : 5 ≤ n) (ho : n % 2 = 1) (ha : 2 ≤ a) (han : a ≤ n - 2) (ws : List Nat) :
    isPrimeRounds n (a :: ws) = if (mrRoundRun a n).composite then some false else isPrimeRounds n ws := by
  have hround : mrRoundResult 0 1 #v[a, n, 0, 0, 0, 0, 0, 0] = .ok none (flagsOfRound (mrRoundRun a n).composite)
      (some (countWord (oddPart n).2)) (countWord (mrRoundRun a n).cnt) :=
    mrRoundResult_of_candidate (x := #v[a, n, 0, 0, 0, 0, 0, 0]) hn ho ha han
  simp only [isPrimeRounds, hround, flagPrime_flagsOfRound]
  cases (mrRoundRun a n).composite <;> rfl

/-- The rounds pass iff none of them proves n composite. -/
theorem isPrimeRounds_eq {n : Nat} (hn : 5 ≤ n) (ho : n % 2 = 1) {ws : List Nat}
    (hws : ∀ a ∈ ws, 2 ≤ a ∧ a ≤ n - 2) :
    isPrimeRounds n ws = some (ws.all fun a => !(mrRoundRun a n).composite) := by
  induction ws with
  | nil => rfl
  | cons a ws ih =>
    obtain ⟨⟨ha, han⟩, hrest⟩ := List.forall_mem_cons.1 hws
    rw [isPrimeRounds_cons hn ho ha han, ih hrest, List.all_cons]
    cases (mrRoundRun a n).composite <;> rfl

theorem isPrimeHost_of_trivial {n : Nat} (h : n < 2 ∨ (4 ≤ n ∧ n % 2 = 0)) (ws : List Nat) :
    isPrimeHost n ws = some false := by
  rw [isPrimeHost, mrPreResult_of_trivial (x := #v[0, n, 0, 0, 0, 0, 0, 0]) (rm := 1) h]
  rfl

theorem isPrimeHost_of_two_or_three {n : Nat} (h : n = 2 ∨ n = 3) (ws : List Nat) : isPrimeHost n ws = some true := by
  rw [isPrimeHost, mrPreResult_of_two_or_three (x := #v[0, n, 0, 0, 0, 0, 0, 0]) (rm := 1) h]
  rfl

theorem isPrimeHost_of_candidate {n : Nat} (hn : 5 ≤ n) (ho : n % 2 = 1) (ws : List Nat) :
    isPrimeHost n ws = isPrimeRounds n ws := by
  rw [isPrimeHost, mrPreResult_of_candidate (x := #v[0, n, 0, 0, 0, 0, 0, 0]) (rm := 1) hn ho]
  rfl

/-- Settles O55: MR_PRE settles the trivial cases, and the rounds answer for every witness of a candidate. -/
theorem hostPrimalityProcedure : Obligations.HostPrimalityProcedure := by
  refine ⟨fun n ws hp hws => ?_, fun n h ws => isPrimeHost_of_trivial h ws,
    fun n hn ho => isPrimeHost_of_candidate hn ho [], fun n ws hn ho hws => ?_⟩
  · have htwo : 2 ≤ n := hp.two_le
    rcases hp.eq_two_or_odd with rfl | ho
    · exact isPrimeHost_of_two_or_three (.inl rfl) ws
    · by_cases hn : 5 ≤ n
      · rw [isPrimeHost_of_candidate hn ho, isPrimeRounds_eq hn ho hws, Option.some_inj, List.all_eq_true]
        intro a ha
        rw [mrRoundRun_composite_of_prime hp hn (hws a ha).1 (hws a ha).2, Bool.not_false]
      · exact isPrimeHost_of_two_or_three (.inr (by omega)) ws
  · rw [isPrimeHost_of_candidate hn ho, isPrimeRounds_eq hn ho hws, Option.some_inj, List.all_eq_false]
    simp only [Bool.not_eq_true', Bool.not_eq_false]

end Sys2Proof.Machine
end

section
/-! PROOFS of the family 60_exceptions.md: every run goes on, what a bus error leaves, and the command errors: their
codes, their order, and what their completion writes. -/

namespace Sys2Proof.Machine

/-! ### Runs (R228) -/

/-- Settles O47: a step always has a next state, and it keeps the invariant. -/
theorem invariantStatesAreSafe : Obligations.InvariantStatesAreSafe := by
  intro s h n
  induction n generalizing s with
  | zero => exact ⟨s, run_zero s, h⟩
  | succ n ih =>
    obtain ⟨t, hstep, -⟩ := step_effect s
    rw [run_succ n hstep]
    exact ih t (stepKeepsTheInvariant s t h hstep)

/-! ### Bus errors (R224) -/

/-- Settles O25: the refused transaction writes the response log alone, and `irq` does not look at it. -/
theorem busErrorChangesNothing : Obligations.BusErrorChangesNothing := by
  intro s t herr
  rw [transact_of_busError herr]
  exact ⟨rfl, rfl⟩

/-! ### The codes of each command (R220) -/

theorem withModulus_eq_err {N : Nat} {k : Result} {code : ErrCode} (h : withModulus N k = .err code) :
    code = .modulusSmall ∨ k = .err code := by
  unfold withModulus at h
  split at h
  · cases h; exact .inl rfl
  · exact .inr h

theorem withOddModulus_eq_err {N : Nat} {k : Result} {code : ErrCode} (h : withOddModulus N k = .err code) :
    code = .modulusSmall ∨ code = .modulusEven ∨ k = .err code := by
  rcases withModulus_eq_err h with hsmall | hpast
  · exact .inl hsmall
  · split at hpast
    · cases hpast; exact .inr (.inl rfl)
    · exact .inr (.inr hpast)

/-- The codes of the checks each command makes, in their order (R220, R221). -/
def errorCodes : Instr → List ErrCode
  | .gcd _ _ _ | .mrPre _ _ => []
  | .modmul _ _ _ _ | .modexp _ _ _ _ | .modinv _ _ _ => [.modulusSmall]
  | .montTo _ _ _ | .montFrom _ _ _ => [.modulusSmall, .modulusEven]
  | .montmul _ _ _ _ => [.modulusSmall, .modulusEven, .operandRange]
  | .mrRound _ _ => [.mrDomain, .operandRange]

theorem resultOf_err_mem {c : Config} {x : Regs} {i : Instr} {code : ErrCode} (h : resultOf c x i = .err code) :
    code ∈ errorCodes i := by
  cases i with
  | gcd => cases h
  | modmul | modexp =>
    rcases withModulus_eq_err h with rfl | h
    · simp [errorCodes]
    · cases h
  | modinv =>
    rcases withModulus_eq_err h with rfl | h
    · simp [errorCodes]
    · split at h <;> cases h
  | montTo | montFrom =>
    rcases withOddModulus_eq_err h with rfl | rfl | h
    · simp [errorCodes]
    · simp [errorCodes]
    · cases h
  | montmul =>
    rcases withOddModulus_eq_err h with rfl | rfl | h
    · simp [errorCodes]
    · simp [errorCodes]
    · split at h <;> cases h
      simp [errorCodes]
  | mrPre =>
    simp only [resultOf, mrPreResult] at h
    split at h <;> cases h
  | mrRound =>
    simp only [resultOf, mrRoundResult] at h
    split at h
    · cases h
      simp [errorCodes]
    · split at h <;> cases h
      simp [errorCodes]

/-- From a cleared ERRCODE, as an issue leaves it, a completion leaves 0 or the code of one of the command's checks. -/
theorem exec_errcode {i : Instr} {s t : State} (hclear : s.errcode = .noError) (hexec : exec i s = .next t) :
    t.errcode = .noError ∨ t.errcode ∈ errorCodes i := by
  obtain rfl := exec_next hexec
  cases hr : resultOf s.cfg s.sources i with
  | err code => exact .inr (resultOf_err_mem hr)
  | ok d f m o => exact .inl hclear

/-- Settles O39: the numbers are those of `ErrCode.code`, the codes of each command its `errorCodes`. -/
theorem errorCodesAreThoseOfTheTable : Obligations.ErrorCodesAreThoseOfTheTable := by
  refine ⟨⟨rfl, rfl, rfl, rfl, rfl, rfl⟩, fun i s t hclear hexec => ?_⟩
  have hcode := exec_errcode hclear hexec
  cases i <;> simpa [errorCodes] using hcode

/-! ### The completion of a command that ends in error (R222, R223) -/

/-- A completion that turns ERR on is the error completion of its result. -/
theorem complete_of_err {r : Result} {s : State} (hclear : s.err = false) (herr : (complete r s).err = true) :
    ∃ code, r = .err code ∧ complete r s = raiseError code s := by
  obtain hraise | ⟨d, f, m, o, -, hok⟩ := complete_cases r s
  · exact hraise
  · rw [hok, completeOk_err, hclear] at herr
    cases herr

theorem raiseError_irq (code : ErrCode) (s : State) : (raiseError code s).irq = s.irqEn := by
  simp [State.irq]

/-- A completing step completes what `execute` returns for the command in flight. -/
theorem step_of_completing_eq_execute {s : State} (h : s.Completing) : ∃ c : Command,
    step s = .next (complete (execute s.cfg c.word c.snap) { s with inputs := s.inputs.tail }) := by
  obtain ⟨hflight, hinputs⟩ := h
  obtain ⟨c, hc⟩ := Option.isSome_iff_exists.1 hflight
  refine ⟨c, step_of_inflight hc ?_⟩
  rcases hinputs with hnil | ⟨es, hengine⟩
  · exact .inl ⟨hnil, by rw [hnil]; rfl⟩
  · exact .inr (by rw [hengine]; rfl)

/-- Settles O40: ERR on after a completion means `raiseError`, whose code is not NO_ERROR; the engine's step completes
an illegal word the same way. -/
theorem errorWritesStatusAlone : Obligations.ErrorWritesStatusAlone := by
  refine ⟨fun i s t hclear hexec herr => ?command, fun s t hcompleting hclear hstep herr => ?engineStep⟩
  case command =>
    obtain rfl := exec_next hexec
    obtain ⟨code, hr, hraise⟩ := complete_of_err hclear herr
    rw [hraise]
    exact ⟨rfl, resultOf_err_ne hr, raiseError_irq code s⟩
  case engineStep =>
    obtain ⟨c, hcomplete⟩ := step_of_completing_eq_execute hcompleting
    rw [hstep] at hcomplete
    cases hcomplete
    obtain ⟨code, hr, hraise⟩ := complete_of_err (by exact hclear) herr
    rw [hraise]
    have hlastcmd (u : State) : busRead u 0x010 4 = .data u.lastcmd := busRead_csr (by decide) (by decide) rfl
    exact ⟨rfl, execute_err_ne hr, raiseError_irq code _, by rw [hlastcmd, hlastcmd]; rfl⟩

/-! ### The order of the checks (R221) -/

theorem withOddModulus_of_le {N : Nat} (h : N ≤ 1) (k : Result) : withOddModulus N k = .err .modulusSmall :=
  withModulus_of_le h _

section Checks

variable {x : Regs} {ra rb rm : Reg}

theorem montmulResult_of_range (h : 1 < readReg x rm) (ho : readReg x rm % 2 = 1)
    (hrange : readReg x rm ≤ readReg x ra ∨ readReg x rm ≤ readReg x rb) (c : Config) (rd : Reg) :
    montmulResult c rd ra rb rm x = .err .operandRange := by
  rw [montmulResult, withOddModulus_of_odd h ho, if_pos hrange]

theorem mrRoundResult_of_domain (h : readReg x rm % 2 = 0 ∨ readReg x rm < 5) (ra : Reg) :
    mrRoundResult ra rm x = .err .mrDomain := if_pos h

theorem mrRoundResult_of_range (ho : readReg x rm % 2 = 1) (h : 5 ≤ readReg x rm)
    (hrange : readReg x ra < 2 ∨ readReg x rm - 2 < readReg x ra) : mrRoundResult ra rm x = .err .operandRange := by
  rw [mrRoundResult, if_neg (by omega), if_pos hrange]

end Checks

/-- Settles O38: the modulus checks come before the operands' range, and the domain before the witness's range. -/
theorem errorsComeInCheckOrder : Obligations.ErrorsComeInCheckOrder := by
  intro rd ra rb rm s a b N failed
  refine ⟨fun hsmall => ?modulusSmall, fun hlt heven => ?modulusEven,
    fun hlt hodd hrange => exec_of_err (montmulResult_of_range hlt hodd hrange s.cfg rd),
    fun hdomain => exec_of_err (mrRoundResult_of_domain hdomain ra),
    fun hodd hfive hrange => exec_of_err (mrRoundResult_of_range hodd hfive hrange)⟩
  case modulusSmall =>
    have herr (k : Result) : withOddModulus N k = .err .modulusSmall := withOddModulus_of_le hsmall k
    exact ⟨exec_of_err (herr _), exec_of_err (herr _), exec_of_err (herr _)⟩
  case modulusEven =>
    have herr (k : Result) : withOddModulus N k = .err .modulusEven := withOddModulus_of_even hlt heven k
    exact ⟨exec_of_err (herr _), exec_of_err (herr _), exec_of_err (herr _)⟩

end Sys2Proof.Machine
end

section
/-! PROOFS of the family 70_reset_and_hazards.md: what both resets leave, and that nothing in flight outlives them; that
every command ends; and the work bound. -/

namespace Sys2Proof.Machine

/-! ### The reset table (R251) -/

theorem ctrlWord_resetBlock (s : State) : ctrlWord (resetBlock s) = 0#32 := by
  simp [ctrlWord]

theorem statusWord_resetBlock (s : State) : statusWord (resetBlock s) = 0#32 := by
  simp [statusWord, ErrCode.code]

/-- The block's common reset effect is the whole table, whatever state it is applied to. -/
theorem resetBlock_atReset (s : State) : (resetBlock s).AtReset where
  regs := readReg_zero
  id := busRead_csr (by decide) (by decide) rfl
  param := busRead_csr (by decide) (by decide) rfl
  ctrl := busRead_csr (by decide) (by decide) (congrArg some (ctrlWord_resetBlock s))
  irqEn := rfl
  status := by rw [busRead_status, statusWord_resetBlock]
  quiet := ⟨rfl, rfl, rfl⟩
  errcode := rfl
  lastcmd := busRead_csr (by decide) (by decide) rfl
  flags := busRead_csr (by decide) (by decide) rfl
  mrs := busRead_csr (by decide) (by decide) rfl
  opcnt := busRead_csr (by decide) (by decide) rfl
  inflight := rfl
  irq := rfl

/-- A CTRL write with SRST = 1 is answered `ok` and resets the block, busy or idle (R252). -/
theorem step_softReset {s : State} {v : Word} {es : List Event} (hv : v[1] = true)
    (h : s.inputs = .bus (.write 0x008 4 v) :: es) :
    step s = .next (resetBlock (s.withHost es (.ok :: s.responses))) := by
  rw [step_bus h, transact_write, busWrite_ctrl, ctrlWrite_of_srst hv]
  rfl

/-- Settles O12: `rst` and SRST both leave `resetBlock`, and the reference machine starts as a block just reset. -/
theorem resetLeavesTheResetTable : Obligations.ResetLeavesTheResetTable := by
  have hstart : State.reset.AtReset := resetBlock_atReset State.reset
  refine ⟨hstart, rfl, hstart.param, fun s hreset => ?_⟩
  obtain ⟨es, hrst⟩ | ⟨es, v, hctrl, hv⟩ := hreset
  · exact ⟨_, step_rst hrst, resetBlock_atReset _, rfl⟩
  · exact ⟨_, step_softReset hv hctrl, resetBlock_atReset _, rfl⟩

/-- Settles O13: the next state is the one of `step_softReset`. -/
theorem softResetIsOneStep : Obligations.SoftResetIsOneStep := fun _ _ _ hv hin =>
  ⟨_, step_softReset hv hin, resetBlock_atReset _, rfl, rfl, rfl, rfl⟩

/-- The reset state of a configuration has the invariant as soon as the configuration is legal. -/
theorem resetOf_inv {c : Config} (h : c.Legal) : (State.resetOf c).Inv where
  legal := h
  regs k := (readReg_zero k).trans_lt (Nat.two_pow_pos _)
  busy_iff := rfl
  busy_quiet hb := by cases hb
  err_iff := by simp [State.resetOf]
  snap c hc := by cases hc
  word c hc := by cases hc
  flags := List.mem_cons_self
  mrs := (width_lt h).1
  opcnt := Nat.zero_le _

/-- Settles O46: the reference configuration is a legal one. -/
theorem resetHasTheInvariant : Obligations.ResetHasTheInvariant :=
  ⟨resetOf_inv (by decide), fun _ => resetOf_inv⟩

/-! ### Nothing completes after a reset (R253) -/

/-- With nothing in flight, engine events are used up without effect. -/
theorem run_engine_of_idle (n : Nat) : ∀ {s : State}, s.inflight = none → s.inputs = List.replicate n .engine →
    Host.Core.run Sys2Proof.core n s = .next { s with inputs := [] } := by
  induction n with
  | zero =>
    intro s _ hin
    rw [List.replicate_zero] at hin
    rw [run_zero, ← hin]
  | succ n ih =>
    intro s hidle hin
    rw [run_succ n ((step_engine hin).trans (engineMove_of_idle hidle))]
    exact ih hidle rfl

/-- Settles O14: the reset leaves nothing in flight, so the engine's moves leave the reset table as it is. -/
theorem resetDiscardsTheCommand : Obligations.ResetDiscardsTheCommand := by
  intro s n v hv e he hin
  have hstep : ∃ u : State, step s = .next (resetBlock u) ∧ u.inputs = List.replicate n .engine := by
    obtain rfl | rfl := he
    · exact ⟨_, step_rst hin, rfl⟩
    · exact ⟨_, step_softReset hv hin, rfl⟩
  obtain ⟨u, hu, hengine⟩ := hstep
  refine ⟨_, (run_succ n hu).trans (run_engine_of_idle n rfl hengine), ?_⟩
  exact resetBlock_atReset { u with inputs := [] }

/-! ### Every command ends (R266) -/

/-- A step takes exactly the next event. -/
theorem step_inputs {s t : State} (h : step s = .next t) : t.inputs = s.inputs.tail := by
  cases step_cause h with
  | completion => exact complete_inputs _ _
  | status => rw [respond_inputs, statusWrite_inputs]
  | window => rw [respond_inputs, windowWrite_inputs]
  | reset | issue | ctrl | quiet => rfl

/-- A run of n steps takes the first n events. -/
theorem run_inputs (n : Nat) : ∀ {s t : State}, Host.Core.run Sys2Proof.core n s = .next t →
    t.inputs = s.inputs.drop n := by
  induction n with
  | zero =>
    intro s t h
    cases h
    rfl
  | succ n ih =>
    intro s t h
    obtain ⟨u, hu, -⟩ := step_effect s
    rw [run_succ n hu] at h
    rw [ih h, step_inputs hu, List.drop_tail]

/-- With no event left the engine's step ends at an idle block (log 2). -/
theorem step_idle_of_no_inputs {s : State} (h : s.Inv) (hin : s.inputs = []) :
    ∃ t, step s = .next t ∧ t.busy = false ∧ t.inflight = none ∧ t.inputs = [] := by
  rw [step_of_no_inputs hin]
  cases hc : s.inflight with
  | none => exact ⟨s, engineMove_of_idle hc, by rw [h.busy_iff, hc]; rfl, hc, hin⟩
  | some c =>
    exact ⟨_, engineMove_of_inflight hc, complete_busy _ _, complete_inflight _ _, by rw [complete_inputs, hin]⟩

/-- Settles O48: the run goes on until no event is left, and one more step lets the engine move. -/
theorem everyCommandEnds : Obligations.EveryCommandEnds := by
  intro s h
  obtain ⟨u, hrun, hinv⟩ := invariantStatesAreSafe s h s.inputs.length
  have hin : u.inputs = [] := by rw [run_inputs _ hrun, List.drop_length]
  obtain ⟨t, hstep, hidle⟩ := step_idle_of_no_inputs hinv hin
  exact ⟨t, (run_add _ 1 s u hrun).trans (run_one hstep), hidle⟩

/-! ### The work bound (R264) -/

/-- A success leaves its own count in OPCNT. -/
theorem exec_opcnt_of_ok {i : Instr} {s t : State} {d : Option (Reg × Nat)} {f o : Word} {m : Option Word}
    (hok : resultOf s.cfg s.sources i = .ok d f m o) (h : exec i s = .next t) : t.opcnt = o := by
  rw [exec_next h, hok]
  rfl

/-- The loop multiplications of an exponent below 2^W are at most 2W. -/
theorem bitlen_add_popcount_le {c : Config} {d : Nat} (h : d < c.radix) : bitlen d + popcount d ≤ 2 * c.width := by
  have hlen := bitlen_le_width h
  have hones := popcount_le_bitlen d
  omega

/-- A round on n − 1 = 2^e · r, n odd, counts at most 2·bitlen(r) + e − 1 multiplications (43_primality.md R192). -/
theorem mrRoundRun_cnt_le (a : Nat) {n r e : Nat} (hn : 1 < n) (ho : n % 2 = 1) (hr : r % 2 = 1)
    (hprod : 2 ^ e * r = n - 1) : (mrRoundRun a n).cnt ≤ 2 * bitlen r + e - 1 := by
  obtain ⟨hodd, hpart⟩ := oddPart_spec hn
  obtain ⟨rfl, rfl⟩ := oddPart_unique hr hodd (hprod.trans hpart.symm)
  obtain ⟨q, hq, hcnt⟩ := mrRoundRun_cnt a n
  have he := one_le_oddPart_snd hn ho
  have hones := popcount_le_bitlen (oddPart n).1
  omega

/-- Settles O51: MODEXP's count fits its 32-bit register by the bound 2W, so OPCNT is exact; a truncated count of
MR_ROUND is bounded by the count itself. -/
theorem workIsBounded : Obligations.WorkIsBounded := by
  intro s t h
  refine ⟨fun rd ra rb rm hN hexec => ?modexp, fun ra rm r e ho hn ha han hr hprod hexec => ?mrRound⟩
  case modexp =>
    have hd : readReg s.sources rb < s.cfg.radix := by
      rw [Inv_sources h]
      exact h.regs rb
    have hbound := bitlen_add_popcount_le hd
    obtain ⟨-, hfits⟩ := width_lt h.legal
    have hcount := exec_opcnt_of_ok (i := .modexp rd ra rb rm) (modexpResult_of_lt hN rd ra rb) hexec
    rw [← bitlen_eq_digits_length, ← popcount_eq_digits_sum] at hcount
    rw [hcount, BitVec.toNat_ofNat, Nat.mod_eq_of_lt (hbound.trans_lt hfits)]
    exact ⟨rfl, hbound⟩
  case mrRound =>
    rw [exec_opcnt_of_ok (i := .mrRound ra rm) (mrRoundResult_of_candidate hn ho ha han) hexec]
    calc (countWord (mrRoundRun (readReg s.sources ra) (readReg s.sources rm)).cnt).toNat
        ≤ (mrRoundRun (readReg s.sources ra) (readReg s.sources rm)).cnt := Nat.mod_le _ _
      _ ≤ 2 * bitlen r + e - 1 := mrRoundRun_cnt_le _ (by omega) ho hr hprod

end Sys2Proof.Machine
end
